-- ==== Sys2Proof/Word.lean ====
section
/-! DEFINITION. The word types of the engine, one per width the spec fixes (00_scope.md R8, R9; 10_state.md R18 to R20;
30_encoding.md R47, R52). -/

namespace Sys2Proof

/-- A command word (30_encoding.md R47). -/
abbrev Command := BitVec 16

/-- A response word (30_encoding.md R52). -/
abbrev Response := BitVec 8

/-- An S-box index `s`, 0 to 7 (00_scope.md R8, R14). -/
abbrev SboxIndex := BitVec 3

/-- A 6-bit S-box input `x` or input mask `alpha` (00_scope.md R8). -/
abbrev Input := BitVec 6

/-- A 4-bit S-box output `y` or output mask `beta` (00_scope.md R8). -/
abbrev Output := BitVec 4

/-- A table row, 0 to 3 (20_memory.md R32). -/
abbrev Row := BitVec 2

/-- A table column, 0 to 15 (20_memory.md R32). -/
abbrev Col := BitVec 4

/-- The 7-bit pattern of a LAT entry, of the data field of a response, or of STATUS (00_scope.md R12; 30_encoding.md R52). -/
abbrev Pattern := BitVec 7

/-- A LAT address, `{s, alpha, beta}` (20_memory.md R35). -/
abbrev LatAddress := BitVec 13

/-- A ROM address, `{s, row, col}` (20_memory.md R32). -/
abbrev RomAddress := BitVec 9

/-- The contents of the S-box ROM: S-box index, row and column to a 4-bit value (00_scope.md R9 item 1; 10_state.md R26). -/
abbrev SboxTable := SboxIndex → Row → Col → Output

end Sys2Proof
end

