-- ==== Sys2Proof/Syntax.lean ====
section
/-! DEFINITION. The five commands (one constructor per row of spec/opcode_table.json) and the lines of the assembly notation
(30_encoding.md R49, R56). -/

namespace Sys2Proof

/-- A legal command with its operands. Every operand has exactly the width of its field, so every value it can take is in range
(30_encoding.md R48). -/
inductive Instr where
  /-- `SBOX s, x`: look up one S-box output (40_sbox_lookup.md R65). -/
  | sbox (box : SboxIndex) (x : Input)
  /-- `CELL s, alpha, beta`: compute one LAT entry, store it, return it (41_lat_cell.md R77). -/
  | cell (box : SboxIndex) (alpha : Input) (beta : Output)
  /-- `RDLAT s, alpha, beta`: read one LAT entry (43_readout_status.md R89). -/
  | rdlat (box : SboxIndex) (alpha : Input) (beta : Output)
  /-- `BUILD`: compute and store all 8192 LAT entries (42_lat_build.md R83). -/
  | build
  /-- `STAT`: read the status register (43_readout_status.md R91). -/
  | stat
  deriving DecidableEq, Repr

/-- One line of the assembly notation, with its operands as the numbers written there (30_encoding.md R56): unlike the fields of
a command word, these can be out of range. -/
inductive AsmLine where
  | sbox (box x : Nat)
  | cell (box alpha beta : Nat)
  | rdlat (box alpha beta : Nat)
  | build
  | stat
  /-- `.word 0xhhhh`: any 16-bit word. -/
  | word (w : Nat)
  deriving DecidableEq, Repr

/-- The line that names a command (30_encoding.md R56). -/
def Instr.toAsm : Instr → AsmLine
  | .sbox box x => .sbox box.toNat x.toNat
  | .cell box alpha beta => .cell box.toNat alpha.toNat beta.toNat
  | .rdlat box alpha beta => .rdlat box.toNat alpha.toNat beta.toNat
  | .build => .build
  | .stat => .stat

/-- The cause of an illegal command (60_exceptions.md R95). -/
inductive Cause where
  /-- Cause 1: `op` is 000, 110 or 111. -/
  | reservedOp
  /-- Cause 2: a field that must be zero is not zero. -/
  | fieldNotZero
  deriving DecidableEq, Repr

end Sys2Proof
end

