-- ==== Sys2Proof/WellFormed.lean ====
section
/-! DEFINITION. The operand ranges: S-box index 0 to 7, input and input mask 0 to 63, output mask 0 to 15, a raw word 16 bits
(00_scope.md R8; 30_encoding.md R48, R56). -/

namespace Sys2Proof

/-- Every operand of the line is in its range; "an operand outside its range is an assembly error, not a command"
(30_encoding.md R56). -/
def AsmLine.wellFormed : AsmLine → Bool
  | .sbox box x => decide (box ≤ 7) && decide (x ≤ 63)
  | .cell box alpha beta => decide (box ≤ 7) && decide (alpha ≤ 63) && decide (beta ≤ 15)
  | .rdlat box alpha beta => decide (box ≤ 7) && decide (alpha ≤ 63) && decide (beta ≤ 15)
  | .build => true
  | .stat => true
  | .word w => decide (w < 65536)

/-- A command is well formed when its operands are in range. The widths of the fields make this hold of every command
(30_encoding.md R48; `Laws.wellFormed_of_width`). -/
def Instr.wellFormed (i : Instr) : Bool := i.toAsm.wellFormed

end Sys2Proof
end

