-- ==== Sys2Proof/Decode.lean ====
section
/-! DEFINITION. The command word: its fields, the total decoder, the encoder, the opcode map as match and mask rows, and the
assembler (30_encoding.md R47 to R51, R54, R56). -/

namespace Sys2Proof

/-- `op` = `cmd[15:13]` (30_encoding.md R47). -/
def opField (w : Command) : BitVec 3 := w.extractLsb' 13 3

/-- `s` = `cmd[12:10]` (30_encoding.md R47). -/
def boxField (w : Command) : SboxIndex := w.extractLsb' 10 3

/-- `a` = `cmd[9:4]` (30_encoding.md R47). -/
def inputField (w : Command) : Input := w.extractLsb' 4 6

/-- `b` = `cmd[3:0]` (30_encoding.md R47). -/
def outputField (w : Command) : Output := w.extractLsb' 0 4

/-- The payload, `cmd[12:0]` = `{s, a, b}` (30_encoding.md R47). -/
def payloadField (w : Command) : LatAddress := w.extractLsb' 0 13

/-- What a command word is: a legal command, or an illegal word with its cause (30_encoding.md R50). -/
inductive Decoded where
  | legal (i : Instr)
  | illegal (c : Cause)
  deriving DecidableEq, Repr

/-- The total classification of the 65,536 command words, in the order of 30_encoding.md R50. -/
def decode (w : Command) : Decoded :=
  if opField w = 0b000 ∨ opField w = 0b110 ∨ opField w = 0b111 then .illegal .reservedOp
  else if opField w = 0b001 ∧ outputField w ≠ 0 then .illegal .fieldNotZero
  else if opField w = 0b100 ∧ payloadField w ≠ 0 then .illegal .fieldNotZero
  else if opField w = 0b101 ∧ payloadField w ≠ 0 then .illegal .fieldNotZero
  else if opField w = 0b001 then .legal (.sbox (boxField w) (inputField w))
  else if opField w = 0b010 then .legal (.cell (boxField w) (inputField w) (outputField w))
  else if opField w = 0b011 then .legal (.rdlat (boxField w) (inputField w) (outputField w))
  else if opField w = 0b100 then .legal .build
  else .legal .stat

/-- A command word from its four fields, `{op, s, a, b}` (30_encoding.md R47). -/
def packWord (op : BitVec 3) (box : SboxIndex) (a : Input) (b : Output) : Command := op ++ box ++ a ++ b

/-- The word of a command, unused fields zero (30_encoding.md R49, R56). -/
def encode : Instr → Command
  | .sbox box x => packWord 0b001 box x 0
  | .cell box alpha beta => packWord 0b010 box alpha beta
  | .rdlat box alpha beta => packWord 0b011 box alpha beta
  | .build => packWord 0b100 0 0 0
  | .stat => packWord 0b101 0 0 0

/-- The mnemonic of a command (30_encoding.md R49). -/
def Instr.mnemonic : Instr → String
  | .sbox .. => "SBOX"
  | .cell .. => "CELL"
  | .rdlat .. => "RDLAT"
  | .build => "BUILD"
  | .stat => "STAT"

/-- A row of the opcode map: a word `w` selects the row's command when `w &&& mask = bits` (30_encoding.md R49, columns
`match` and `mask`). -/
structure OpcodeRow where
  mnemonic : String
  bits : Command
  mask : Command
  deriving DecidableEq, Repr

/-- The five rows of the opcode map that name a command (30_encoding.md R49). -/
def opcodeTable : List OpcodeRow :=
  [⟨"SBOX", 0x2000, 0xE00F⟩, ⟨"CELL", 0x4000, 0xE000⟩, ⟨"RDLAT", 0x6000, 0xE000⟩, ⟨"BUILD", 0x8000, 0xFFFF⟩,
    ⟨"STAT", 0xA000, 0xFFFF⟩]

/-- The word `w` selects the row: `(w & mask) == match` (30_encoding.md R49). -/
def OpcodeRow.selects (r : OpcodeRow) (w : Command) : Bool := (w &&& r.mask) == r.bits

/-- `op << 13 | s << 10 | a << 4 | b` on numbers (30_encoding.md R56). -/
def assembleFields (op box a b : Nat) : Nat := op <<< 13 ||| box <<< 10 ||| a <<< 4 ||| b

/-- The number a line stands for, before its range check (30_encoding.md R56). -/
def AsmLine.number : AsmLine → Nat
  | .sbox box x => assembleFields 1 box x 0
  | .cell box alpha beta => assembleFields 2 box alpha beta
  | .rdlat box alpha beta => assembleFields 3 box alpha beta
  | .build => assembleFields 4 0 0 0
  | .stat => assembleFields 5 0 0 0
  | .word w => w

/-- The word of an assembly line; none is the assembly error of an operand out of range (30_encoding.md R56). -/
def assemble (l : AsmLine) : Option Command := if l.wellFormed then some (BitVec.ofNat 16 l.number) else none

/-- The command word whose bits are `w`, numbered as spec/opcode_table.json numbers them; bits at and above `nbits` are zero.
A command is one 16-bit word handed over whole (30_encoding.md R47; 20_memory.md R38, R39). Log entry 9. -/
def tableWord (nbits w : Nat) : Command := BitVec.ofNat 16 (w % 2 ^ nbits)

/-- The command the decoder reads from such a word; none where the word is illegal. -/
def decodeTableWord (nbits w : Nat) : Option Instr :=
  match decode (tableWord nbits w) with
  | .legal i => some i
  | .illegal _ => none

end Sys2Proof
end

