-- ==== Sys2Proof/Machine/Arith.lean ====
section
/-! DEFINITION. The arithmetic of the engine: parity and popcount (00_scope.md R13), the signed encoding of an entry and its
extensions (R12). -/

namespace Sys2Proof.Machine

/-- The number of 1 bits among the lowest `k` bits of `v`. -/
def popcountBelow {n : Nat} (v : BitVec n) : Nat → Nat
  | 0 => 0
  | k + 1 => popcountBelow v k + (v.getLsbD k).toNat

/-- The number of 1 bits of `v` (00_scope.md R13). -/
def popcount {n : Nat} (v : BitVec n) : Nat := popcountBelow v n

/-- The XOR of the lowest `k` bits of `v`. -/
def xorBelow {n : Nat} (v : BitVec n) : Nat → Bool
  | 0 => false
  | k + 1 => xorBelow v k ^^ v.getLsbD k

/-- The XOR of all bits of `v` (00_scope.md R13). -/
def parity {n : Nat} (v : BitVec n) : Bool := xorBelow v n

/-- The 7-bit pattern equal to `n` mod 128 (00_scope.md R12). -/
def enc7 (n : Int) : Pattern := BitVec.ofInt 7 n

/-- The integer a pattern stands for: `p` below 64, `p - 128` otherwise (00_scope.md R12). -/
def dec7 (p : Pattern) : Int := if p.toNat < 64 then (p.toNat : Int) else (p.toNat : Int) - 128

/-- Extension to `n` bits by copies of the top bit (00_scope.md R12). -/
def sextTo (n : Nat) {k : Nat} (p : BitVec k) : BitVec n := p.signExtend n

/-- Extension to `n` bits by zeros (00_scope.md R12). -/
def zextTo (n : Nat) {k : Nat} (p : BitVec k) : BitVec n := p.setWidth n

end Sys2Proof.Machine
end

