-- ==== Sys2Proof/Config.lean ====
section
/-! DEFINITION. What is fixed for one engine and open in the spec, and the free values: opaque constants, so that no proof can
see what any of them is. -/

namespace Sys2Proof.Config

/-- `SBOX_TABLE`, the S-box contents installed in this engine: an open parameter (00_scope.md R9 item 1; 10_state.md R26;
40_sbox_lookup.md R69; 93_implementation_defined.md U5). Log entry 1. -/
opaque sboxTable : SboxTable

/-- The value of the strap `conv_i` at the reset that `State.reset` stands for (70_reset_and_hazards.md R107;
93_implementation_defined.md U3, U4). Log entry 2. -/
opaque strap : Bool

/-- `draw(7)`, the data of a read of an unwritten LAT entry, one for each draw (00_scope.md R13; 20_memory.md R36;
43_readout_status.md R90; 93_implementation_defined.md U1). Log entry 5. -/
opaque freeEntry : Nat → Pattern

/-- What CMD holds when a command step has ended (10_state.md R20; 93_implementation_defined.md U8). Log entry 4. -/
opaque freeCmd : Nat → Command

/-- What SEQ holds when a command step has ended (10_state.md R29; 93_implementation_defined.md U8). Log entry 4. -/
opaque freeSeq : Nat → BitVec 19

/-- What CNT holds when a command step has ended (10_state.md R18; 93_implementation_defined.md U8). Log entry 4. -/
opaque freeCnt : Nat → Pattern

end Sys2Proof.Config
end

