-- ==== Sys2Proof/Machine/State.lean ====
section
/-! DEFINITION. The state of the engine as plain data, the state after reset, and the ways a step can stop. -/

namespace Sys2Proof.Machine

/-- No step of the engine faults, so there is no constructor: legal commands have no error path (60_exceptions.md R94), an
illegal word is a complete step with a next state (R96), nothing is stuck (R101), and an index outside the table cannot be
formed and gets no runtime fault (R99; 93_implementation_defined.md U10). Safe: nothing is stopped. -/
inductive Fault
  deriving DecidableEq, Repr

/-- Why a step is refused. -/
inductive Refusal where
  /-- Raised by an arm of `exec` whose command has no meaning yet; no arm raises it in this model. Safe: the machine stops. -/
  | notModelled (mnemonic : String)
  deriving DecidableEq, Repr

/-- A written LAT entry: its address and its 7-bit pattern (20_memory.md R35, R37). -/
abbrev LatCell := Nat × Pattern

/-- The LAT RAM as the list of its WRITTEN entries, addresses strictly rising; an address that is not listed is unwritten
(10_state.md R16). Log entry 6. -/
abbrev LatRam := List LatCell

/-- The fields of STATUS that are stored (10_state.md R22); bits 6:3 are hard-wired zero, see `statusWord`. -/
structure Status where
  /-- 0 = outer-bit convention, 1 = flat convention (10_state.md R23). -/
  conv : Bool
  /-- The LAT holds the complete table (10_state.md R24). -/
  done : Bool
  /-- At least one illegal command since reset (10_state.md R25). -/
  err : Bool
  deriving DecidableEq, Repr

/-- The three datapath registers, used inside a step (10_state.md R17 to R20). -/
structure Datapath where
  /-- CMD, the command latch (10_state.md R20). -/
  cmd : Command
  /-- SEQ = `{s, alpha, beta, x}`, the sequencer counter (10_state.md R19). -/
  seq : BitVec 19
  /-- CNT, the match counter (10_state.md R18). -/
  cnt : Pattern
  deriving DecidableEq, Repr

/-- A move of the host (60_exceptions.md R104). -/
inductive HostAction where
  /-- Offer a command word on the command channel (30_encoding.md R46). -/
  | command (w : Command)
  /-- Take the response word that is offered, if one is (30_encoding.md R46). -/
  | takeResponse
  /-- Assert and release `rst`, with the strap `conv_i` at the given value (70_reset_and_hazards.md R106, R107). -/
  | reset (conv : Bool)
  deriving DecidableEq, Repr

/-- The state. `lat` and `status` are what survives from step to step (10_state.md R15); `dp` holds the registers used inside a
step (R17 to R20; log entry 4); `rsp` is the response offered and not yet taken (30_encoding.md R46); `host` is the host's moves
to come, next first (log entry 7); `draws` counts the free values drawn so far (log entry 5). -/
structure State where
  lat : LatRam
  status : Status
  dp : Datapath
  rsp : Option Response
  host : List HostAction
  draws : Nat
  deriving DecidableEq, Repr

/-- The state that `Reset(conv)` leaves (10_state.md R29; 70_reset_and_hazards.md R106, R107): every entry unwritten, CONV = the
strap, DONE = ERR = 0, no response offered. CMD, SEQ and CNT are unspecified there; the model names 0 (log entry 3). What is the
host's and the model's own is handed in. -/
def State.afterReset (conv : Bool) (host : List HostAction) (draws : Nat) : State where
  lat := []
  status := { conv := conv, done := false, err := false }
  dp := { cmd := 0, seq := 0, cnt := 0 }
  rsp := none
  host := host
  draws := draws

/-- The machine right after reset, with the strap the unspecified `Config.strap` (log entry 2) and a host that has issued
nothing yet (log entry 7). -/
def State.reset : State := State.afterReset Config.strap [] 0

end Sys2Proof.Machine
end

