-- ==== Sys2Proof/Machine/Flags.lean ====
section
/-! DEFINITION. STATUS as a word and the writes to its flags (10_state.md R22 to R25), the cause codes and the response word
(30_encoding.md R52, R54). -/

namespace Sys2Proof.Machine

/-- STATUS as its 7-bit word: bit 0 CONV, bit 1 DONE, bit 2 ERR, bits 6:3 hard-wired zero (10_state.md R22). -/
def statusWord (f : Status) : Pattern :=
  (0 : BitVec 4) ++ BitVec.ofBool f.err ++ BitVec.ofBool f.done ++ BitVec.ofBool f.conv

/-- `STATUS.DONE <- 1` (42_lat_build.md R84). -/
def setDone (s : State) : State := { s with status := { s.status with done := true } }

/-- `STATUS.ERR <- 1` (60_exceptions.md R96). -/
def setErr (s : State) : State := { s with status := { s.status with err := true } }

/-- The code of a cause (30_encoding.md R54). -/
def causeCode : Cause → Pattern
  | .reservedOp => 1
  | .fieldNotZero => 2

/-- The response word `{err, data}` (30_encoding.md R52). -/
def responseWord (err : Bool) (data : Pattern) : Response := BitVec.ofBool err ++ data

/-- `err` = bit 7 of a response word (30_encoding.md R52). -/
def responseErr (r : Response) : Bool := r.getLsbD 7

/-- `data` = bits 6:0 of a response word (30_encoding.md R52). -/
def responseData (r : Response) : Pattern := r.extractLsb' 0 7

end Sys2Proof.Machine
end

