-- ==== Sys2Proof/Machine/LatRam.lean ====
section
/-! DEFINITION. The LAT RAM as the list of its written entries: lookup, write, canonical form (10_state.md R16; 20_memory.md R35
to R37). -/

namespace Sys2Proof.Machine

/-- The pattern listed for an address; none if the entry is unwritten. -/
def latFind (a : Nat) : LatRam → Option Pattern
  | [] => none
  | (b, w) :: rest => if a = b then some w else latFind a rest

/-- Put an entry where its address belongs, replacing the one that is there. -/
def latInsert (a : Nat) (v : Pattern) : LatRam → LatRam
  | [] => [(a, v)]
  | (b, w) :: rest =>
    if a < b then (a, v) :: (b, w) :: rest
    else if a = b then (a, v) :: rest
    else (b, w) :: latInsert a v rest

/-- The addresses rise strictly from `low` on and lie in the LAT space, 0 to 8191. -/
def latRising (low : Nat) : LatRam → Bool
  | [] => true
  | (a, _) :: rest => decide (low ≤ a) && decide (a < 8192) && latRising (a + 1) rest

/-- The canonical form: addresses strictly rising, all in 0 to 8191. An unlisted entry is unwritten, so no listed entry can equal
what an unlisted one reads as (log entry 6). -/
def latWf (l : LatRam) : Bool := latRising 0 l

/-- The stored pattern at an address, none if the entry is unwritten (20_memory.md R36). -/
def latGet (l : LatRam) (a : LatAddress) : Option Pattern := latFind a.toNat l

/-- `MemWrite(LAT, a, v)`: the entry at `a` becomes written with `v` (20_memory.md R37). -/
def latPut (l : LatRam) (a : LatAddress) (v : Pattern) : LatRam := latInsert a.toNat v l

end Sys2Proof.Machine
end

