-- ==== Sys2Proof/Machine/Operands.lean ====
section
/-! DEFINITION. How addresses and counters are formed from operand fields: the row and column of an input under the two
conventions, the ROM address, the LAT address, the fields of SEQ. Everything is wiring: concatenation and bit selection. -/

namespace Sys2Proof.Machine

/-- `RomAddr(s, row, col)` = `{s, row, col}` (20_memory.md R32). -/
def romAddress (box : SboxIndex) (row : Row) (col : Col) : RomAddress := box ++ row ++ col

/-- `ra[8:6]` (20_memory.md R32). -/
def romBox (ra : RomAddress) : SboxIndex := ra.extractLsb' 6 3

/-- `ra[5:4]` (20_memory.md R32). -/
def romRow (ra : RomAddress) : Row := ra.extractLsb' 4 2

/-- `ra[3:0]` (20_memory.md R32). -/
def romCol (ra : RomAddress) : Col := ra.extractLsb' 0 4

/-- `LatAddr(s, alpha, beta)` = `{s, alpha, beta}` (20_memory.md R35). -/
def latAddress (box : SboxIndex) (alpha : Input) (beta : Output) : LatAddress := box ++ alpha ++ beta

/-- `a[12:10]` (20_memory.md R35). -/
def latBox (a : LatAddress) : SboxIndex := a.extractLsb' 10 3

/-- `a[9:4]` (20_memory.md R35). -/
def latAlpha (a : LatAddress) : Input := a.extractLsb' 4 6

/-- `a[3:0]` (20_memory.md R35). -/
def latBeta (a : LatAddress) : Output := a.extractLsb' 0 4

/-- The row under the outer-bit convention, `{x[5], x[0]}` (40_sbox_lookup.md R62). -/
def outerRow (x : Input) : Row := x.extractLsb' 5 1 ++ x.extractLsb' 0 1

/-- The column under the outer-bit convention, `x[4:1]` (40_sbox_lookup.md R62). -/
def outerCol (x : Input) : Col := x.extractLsb' 1 4

/-- The row under the flat convention, `x[5:4]` (40_sbox_lookup.md R63). -/
def flatRow (x : Input) : Row := x.extractLsb' 4 2

/-- The column under the flat convention, `x[3:0]` (40_sbox_lookup.md R63). -/
def flatCol (x : Input) : Col := x.extractLsb' 0 4

/-- `RowCol(c, x)`: convention 0 is outer-bit, 1 is flat (10_state.md R23; 40_sbox_lookup.md R62 to R64). -/
def rowCol (conv : Bool) (x : Input) : Row × Col :=
  if conv then (flatRow x, flatCol x) else (outerRow x, outerCol x)

/-- `P(v)` = `{v[5], v[3:0], v[4]}` (40_sbox_lookup.md R66). -/
def permuteInput (v : Input) : Input := v.extractLsb' 5 1 ++ v.extractLsb' 0 4 ++ v.extractLsb' 4 1

/-- SEQ from its fields, `{s, alpha, beta, x}` (10_state.md R19). -/
def seqPack (box : SboxIndex) (alpha : Input) (beta : Output) (x : Input) : BitVec 19 := box ++ alpha ++ beta ++ x

/-- `SEQ[18:16]` (10_state.md R19). -/
def seqBox (q : BitVec 19) : SboxIndex := q.extractLsb' 16 3

/-- `SEQ[15:10]` (10_state.md R19). -/
def seqAlpha (q : BitVec 19) : Input := q.extractLsb' 10 6

/-- `SEQ[9:6]` (10_state.md R19). -/
def seqBeta (q : BitVec 19) : Output := q.extractLsb' 6 4

/-- `SEQ[5:0]` (10_state.md R19). -/
def seqX (q : BitVec 19) : Input := q.extractLsb' 0 6

/-- `SEQ[18:6]`, the LAT address of the cell SEQ is in (42_lat_build.md R82). -/
def seqCell (q : BitVec 19) : LatAddress := q.extractLsb' 6 13

end Sys2Proof.Machine
end

