-- ==== Sys2Proof/Machine/Ops.lean ====
section
/-! DEFINITION. The named operations over memory, registers and channels: MemRead and MemWrite, `respond`, `draw`, the error step
(the one exception of the engine; there is no return from it, 60_exceptions.md R101), reset, the handshakes, the start and the
end of a command step. -/

namespace Sys2Proof.Machine

/-- `MemRead(ROM, ra)` (20_memory.md R33). -/
def romRead (table : SboxTable) (ra : RomAddress) : Output := table (romBox ra) (romRow ra) (romCol ra)

/-- `MemWrite(LAT, a, v)` (20_memory.md R37). -/
def latWrite (a : LatAddress) (v : Pattern) (s : State) : State := { s with lat := latPut s.lat a v }

/-- The value `MemRead(LAT, a)` gives: the stored pattern, or `draw(7)` if the entry is unwritten (20_memory.md R36). -/
def latReadValue (a : LatAddress) (s : State) : Pattern := (latGet s.lat a).getD (Config.freeEntry s.draws)

/-- The state after `MemRead(LAT, a)`: a read has no side effect (20_memory.md R36), but a draw moves the model's counter on, so
that two reads of the same unwritten entry need not agree. -/
def latReadState (a : LatAddress) (s : State) : State :=
  { s with draws := if (latGet s.lat a).isSome then s.draws else s.draws + 1 }

/-- `respond(e, d)` (00_scope.md R13; 30_encoding.md R52). -/
def respond (err : Bool) (data : Pattern) (s : State) : State := { s with rsp := some (responseWord err data) }

/-- `raise IllegalCommand(c)`, the error step: ERR is set, the cause is the response, nothing else changes
(60_exceptions.md R96). -/
def raiseIllegal (c : Cause) (s : State) : State := respond true (causeCode c) (setErr s)

/-- `cmd_ready`: no response waits to be taken (30_encoding.md R46; 20_memory.md R40). -/
def cmdReady (s : State) : Bool := s.rsp.isNone

/-- `rsp_valid`: a response is offered (30_encoding.md R46). -/
def rspValid (s : State) : Bool := s.rsp.isSome

/-- The response offered is taken by the host (30_encoding.md R46; 60_exceptions.md R104). -/
def responseTaken (s : State) : State := { s with rsp := none }

/-- The host goes on to the moves `rest`. -/
def hostMoves (rest : List HostAction) (s : State) : State := { s with host := rest }

/-- A command word is accepted: CMD is loaded (10_state.md R20). -/
def acceptCommand (w : Command) (s : State) : State := { s with dp := { s.dp with cmd := w } }

/-- A command step has ended: what CMD, SEQ and CNT hold from here on is any value
(10_state.md R18, R20, R29; 93_implementation_defined.md U8). Log entry 4. -/
def releaseDatapath (s : State) : State :=
  { s with
    dp := { cmd := Config.freeCmd s.draws, seq := Config.freeSeq s.draws, cnt := Config.freeCnt s.draws }
    draws := s.draws + 1 }

/-- `Reset(conv)`, from any state (70_reset_and_hazards.md R106, R107). The host's later moves and the counter of free values are
not the engine's and stay. -/
def resetEngine (conv : Bool) (s : State) : State := State.afterReset conv s.host s.draws

/-- Apply a change to the next state an outcome holds. -/
def mapNext (f : State → State) : Host.Outcome State Fault Refusal → Host.Outcome State Fault Refusal
  | .next s => .next (f s)
  | .fault r => .fault r
  | .refused r => .refused r

end Sys2Proof.Machine
end

