-- ==== Sys2Proof/Machine/Lookup.lean ====
section
/-! DEFINITION. The S-box lookup engine and the SBOX command (40_sbox_lookup.md R61 to R68). -/

namespace Sys2Proof.Machine

/-- `SboxOut(T, c, s, x)`: the ROM entry at the row and column of `x` (40_sbox_lookup.md R64). -/
def sboxOut (table : SboxTable) (conv : Bool) (box : SboxIndex) (x : Input) : Output :=
  romRead table (romAddress box (rowCol conv x).1 (rowCol conv x).2)

/-- `SBOX s, x` (40_sbox_lookup.md R65). -/
def execSbox (box : SboxIndex) (x : Input) (s : State) : Host.Outcome State Fault Refusal :=
  .next (respond false (zextTo 7 (sboxOut Config.sboxTable s.status.conv box x)) s)

end Sys2Proof.Machine
end

