-- ==== Sys2Proof/Machine/Cell.lean ====
section
/-! DEFINITION. The inner-product accumulator and the CELL command (41_lat_cell.md R70 to R80). The functions `count` and `bias`
are the rules' own; the command itself runs on the registers SEQ and CNT (10_state.md R18, R19). -/

namespace Sys2Proof.Machine

/-- `IpIn(alpha, x)` (41_lat_cell.md R70). -/
def ipIn (alpha x : Input) : Bool := parity (alpha &&& x)

/-- `IpOut(beta, y)` (41_lat_cell.md R71). -/
def ipOut (beta y : Output) : Bool := parity (beta &&& y)

/-- `Match(T, c, s, alpha, beta, x)`: the two inner products agree (41_lat_cell.md R72). -/
def matchBit (table : SboxTable) (conv : Bool) (box : SboxIndex) (alpha : Input) (beta : Output) (x : Input) : Bool :=
  !(ipIn alpha x ^^ ipOut beta (sboxOut table conv box x))

/-- The number of inputs among the first `k` with a match (41_lat_cell.md R73). -/
def countBelow (table : SboxTable) (conv : Bool) (box : SboxIndex) (alpha : Input) (beta : Output) : Nat → Nat
  | 0 => 0
  | k + 1 =>
    countBelow table conv box alpha beta k + (matchBit table conv box alpha beta (BitVec.ofNat 6 k)).toNat

/-- `Count(T, c, s, alpha, beta)` (41_lat_cell.md R73). -/
def count (table : SboxTable) (conv : Bool) (box : SboxIndex) (alpha : Input) (beta : Output) : Nat :=
  countBelow table conv box alpha beta 64

/-- `Bias(T, c, s, alpha, beta)` (41_lat_cell.md R74). -/
def bias (table : SboxTable) (conv : Bool) (box : SboxIndex) (alpha : Input) (beta : Output) : Int :=
  (count table conv box alpha beta : Int) - 32

/-- The normaliser, `CNT - 32` as the 7-bit add of 0b1100000 (41_lat_cell.md R76). -/
def normalise (cnt : Pattern) : Pattern := cnt + 0b1100000

/-- SEQ's input for one elementary operation: the match for the fields of SEQ is added to CNT
(10_state.md R18, R19; 41_lat_cell.md R73, steps 2a to 2d). -/
def addMatch (table : SboxTable) (conv : Bool) (d : Datapath) : Datapath :=
  let y := sboxOut table conv (seqBox d.seq) (seqX d.seq)
  if (ipIn (seqAlpha d.seq) (seqX d.seq) ^^ ipOut (seqBeta d.seq) y) = false then { d with cnt := d.cnt + 1 } else d

/-- SEQ is set to `{s, alpha, beta, x}` and the elementary operation for it is done. -/
def elementaryOp (table : SboxTable) (conv : Bool) (box : SboxIndex) (alpha : Input) (beta : Output) (d : Datapath)
    (x : Input) : Datapath :=
  addMatch table conv { d with seq := seqPack box alpha beta x }

/-- The 64 inputs, ascending (41_lat_cell.md R73 step 2). Irreducible, so that Lean does not unroll the 64 operations unasked. -/
@[irreducible] def allInputs : List Input := (List.range 64).map (BitVec.ofNat 6)

/-- `CNT <- 0`, then the 64 elementary operations of one cell (41_lat_cell.md R73). -/
def accumulate (table : SboxTable) (conv : Bool) (box : SboxIndex) (alpha : Input) (beta : Output) (d : Datapath) :
    Datapath :=
  allInputs.foldl (elementaryOp table conv box alpha beta) { d with cnt := 0 }

/-- One cell on the LAT and the datapath registers: count with CNT, then store the normalised count at the cell's address
(41_lat_cell.md R77; 42_lat_build.md R83, the body of the loop nest). -/
def cellWork (table : SboxTable) (conv : Bool) (box : SboxIndex) (alpha : Input) (beta : Output) (p : LatRam × Datapath) :
    LatRam × Datapath :=
  let d := accumulate table conv box alpha beta p.2
  (latPut p.1 (latAddress box alpha beta) (normalise d.cnt), d)

/-- The state with the LAT and the datapath registers of a pair: all that a cell's run changes. -/
def withWork (s : State) (p : LatRam × Datapath) : State := { s with lat := p.1, dp := p.2 }

/-- One cell of the engine's state, under its convention (41_lat_cell.md R77). -/
def runCell (table : SboxTable) (box : SboxIndex) (alpha : Input) (beta : Output) (s : State) : State :=
  withWork s (cellWork table s.status.conv box alpha beta (s.lat, s.dp))

/-- `CELL s, alpha, beta` (41_lat_cell.md R77). -/
def execCell (box : SboxIndex) (alpha : Input) (beta : Output) (s : State) : Host.Outcome State Fault Refusal :=
  let t := runCell Config.sboxTable box alpha beta s
  .next (respond false (normalise t.dp.cnt) t)

end Sys2Proof.Machine
end

