-- ==== Sys2Proof/Machine/Build.lean ====
section
/-! DEFINITION. The full-table sequencer and the BUILD command (42_lat_build.md R81 to R87). -/

namespace Sys2Proof.Machine

/-- The (s, alpha, beta) triples in the order of the loop nest: s outermost, then alpha, then beta, each ascending
(42_lat_build.md R82, R83). Irreducible, so that Lean does not unroll the 8192 cells unasked. -/
@[irreducible] def allCells : List (SboxIndex × Input × Output) :=
  (List.range 8).flatMap fun i =>
    (List.range 64).flatMap fun j =>
      (List.range 16).map fun k => (BitVec.ofNat 3 i, BitVec.ofNat 6 j, BitVec.ofNat 4 k)

/-- Run the given cells one after another, under the engine's convention. -/
def runCells (table : SboxTable) (cells : List (SboxIndex × Input × Output)) (s : State) : State :=
  withWork s (cells.foldl (fun p c => cellWork table s.status.conv c.1 c.2.1 c.2.2 p) (s.lat, s.dp))

/-- The loop nest of 42_lat_build.md R83. -/
def buildTable (table : SboxTable) (s : State) : State := runCells table allCells s

/-- `BUILD` (42_lat_build.md R83, R84): the loop nest, then DONE, then the response `{0, 0}`. -/
def execBuild (s : State) : Host.Outcome State Fault Refusal :=
  .next (respond false 0 (setDone (buildTable Config.sboxTable s)))

end Sys2Proof.Machine
end

