-- ==== Sys2Proof/Machine/ReadOut.lean ====
section
/-! DEFINITION. Read-out and status: the RDLAT and STAT commands (43_readout_status.md R88 to R92). -/

namespace Sys2Proof.Machine

/-- `RDLAT s, alpha, beta` (43_readout_status.md R89, R90). -/
def execRdlat (box : SboxIndex) (alpha : Input) (beta : Output) (s : State) : Host.Outcome State Fault Refusal :=
  .next (respond false (latReadValue (latAddress box alpha beta) s) (latReadState (latAddress box alpha beta) s))

/-- `STAT` (43_readout_status.md R91). -/
def execStat (s : State) : Host.Outcome State Fault Refusal := .next (respond false (statusWord s.status) s)

end Sys2Proof.Machine
end

