-- ==== Sys2Proof/Machine/Dispatch.lean ====
section
/-! DEFINITION. The meaning of each legal command: one arm per constructor of Instr. -/

namespace Sys2Proof.Machine

def exec (i : Instr) (s : State) : Host.Outcome State Fault Refusal :=
  match i with
  | .sbox box x => Sys2Proof.Machine.execSbox box x s
  | .cell box alpha beta => Sys2Proof.Machine.execCell box alpha beta s
  | .rdlat box alpha beta => Sys2Proof.Machine.execRdlat box alpha beta s
  | .build => Sys2Proof.Machine.execBuild s
  | .stat => Sys2Proof.Machine.execStat s

end Sys2Proof.Machine
end

