-- ==== Sys2Proof/Machine/Transaction.lean ====
section
/-! DEFINITION. One transaction of the engine with its host (00_scope.md R7; 20_memory.md R40; 30_encoding.md R46;
60_exceptions.md R104; 70_reset_and_hazards.md R106). -/

namespace Sys2Proof.Machine

/-- The command in CMD is decoded and executed: a legal word by `exec`, an illegal one by the error step
(30_encoding.md R50; 60_exceptions.md R96). -/
def runLatched (s : State) : Host.Outcome State Fault Refusal :=
  match decode s.dp.cmd with
  | .legal i => exec i s
  | .illegal c => .next (raiseIllegal c s)

/-- One whole command step on an accepted word: CMD is loaded, the command runs, the datapath registers are released
(00_scope.md R7; 10_state.md R20). -/
def commandStep (w : Command) (s : State) : Host.Outcome State Fault Refusal :=
  mapNext releaseDatapath (runLatched (acceptCommand w s))

/-- The host's next move. With none to make the engine is idle (60_exceptions.md section 11). A command is accepted only while
no response waits; while one does, the step is the host's taking of that response (20_memory.md R40; log entry 8). -/
def transaction (s : State) : Host.Outcome State Fault Refusal :=
  match s.host with
  | [] => .next s
  | .takeResponse :: rest => .next (responseTaken (hostMoves rest s))
  | .reset conv :: rest => .next (resetEngine conv (hostMoves rest s))
  | .command w :: rest => if cmdReady s then commandStep w (hostMoves rest s) else .next (responseTaken s)

/-- The host's next move becomes the command word `w`, on a ready command channel. -/
def offerCommand (w : Command) (s : State) : State := { s with rsp := none, host := .command w :: s.host }

end Sys2Proof.Machine
end

