-- ==== Sys2Proof/Machine/HostIdiom.lean ====
section
/-! DEFINITION. The one host idiom the spec names, DUMP, which is not a command (30_encoding.md R57; 43_readout_status.md R93). -/

namespace Sys2Proof.Machine

/-- DUMP: the 8192 RDLAT commands, s outermost, then alpha, then beta (30_encoding.md R57). -/
def dump : List Instr := allCells.map fun c => .rdlat c.1 c.2.1 c.2.2

end Sys2Proof.Machine
end

