-- ==== Sys2Proof/Machine/Sequencer.lean ====
section
/-! DEFINITION. The sequencer as the 19-bit counter that 42_lat_build.md R82 describes, one elementary operation at a time. BUILD
is defined by the loop nest of R83 (`buildTable`); that this counter does the same is a statement about the two. -/

namespace Sys2Proof.Machine

/-- The last value of SEQ, 524,287 (10_state.md R19, R21). -/
def seqTop : BitVec 19 := 0x7FFFF

/-- CNT is cleared where x = 0 (42_lat_build.md R82). -/
def clearAtFirst (d : Datapath) : Datapath := if seqX d.seq = 0 then { d with cnt := 0 } else d

/-- One elementary operation of the sequencer: CNT is cleared where x = 0, the match is added, the entry is written where
x = 63, and SEQ advances by 1, but at the top of its range the build ends rather than wrapping
(10_state.md R21; 42_lat_build.md R82). -/
def sequencerTick (table : SboxTable) (conv : Bool) (p : LatRam × Datapath) : LatRam × Datapath :=
  let d := addMatch table conv (clearAtFirst p.2)
  (if seqX d.seq = 63 then latPut p.1 (seqCell d.seq) (normalise d.cnt) else p.1,
    { d with seq := if d.seq = seqTop then d.seq else d.seq + 1 })

/-- `n` elementary operations. -/
def sequencerTicks (table : SboxTable) (conv : Bool) : Nat → LatRam × Datapath → LatRam × Datapath
  | 0, p => p
  | n + 1, p => sequencerTicks table conv n (sequencerTick table conv p)

/-- SEQ from 0, through all 524,288 elementary operations (10_state.md R19; 42_lat_build.md R82, R86). -/
def sequencerBuild (table : SboxTable) (s : State) : State :=
  withWork s (sequencerTicks table s.status.conv 524288 (s.lat, { s.dp with seq := 0 }))

end Sys2Proof.Machine
end

