-- ==== Sys2Proof/Safety.lean ====
section
/-! DEFINITION. The terms claims are stated in: the invariant of the reachable states (10_state.md R30), runs of command words
with their responses (30_encoding.md R55; 70_reset_and_hazards.md R110, R116), and what of a state a host can ever see
(10_state.md R17, R28). -/

namespace Sys2Proof.Machine

/-- Every written entry holds `enc7(Bias(T, c, s, alpha, beta))` of its own cell (10_state.md R30 (a)). -/
def entriesHoldBias (table : SboxTable) (s : State) : Prop :=
  ∀ box alpha beta v, latGet s.lat (latAddress box alpha beta) = some v →
    v = enc7 (bias table s.status.conv box alpha beta)

/-- All 8192 entries are written. -/
def allWritten (s : State) : Prop := ∀ a : LatAddress, (latGet s.lat a).isSome

/-- A response that is offered is one of the error responses 0x81 and 0x82, or has `err` = 0 (30_encoding.md R54). -/
def responseLegal (s : State) : Prop :=
  ∀ r, s.rsp = some r → responseErr r = true → r = 0x81 ∨ r = 0x82

/-- What holds in every state reachable from reset (10_state.md R30 (a), (b); 30_encoding.md R54; log entry 6). -/
def StateInv (s : State) : Prop :=
  latWf s.lat = true ∧ entriesHoldBias Config.sboxTable s ∧ (s.status.done = true → allWritten s) ∧ responseLegal s

/-- The state without what CMD, SEQ and CNT hold, which no command can observe (10_state.md R17). -/
def forgetDatapath (s : State) : State := { s with dp := { cmd := 0, seq := 0, cnt := 0 } }

/-- The host hands over the words one after another and takes each response before the next word: the state after the last
response is taken and the responses in order (20_memory.md R40; 30_encoding.md R46, R55). None if a command step does not
complete. -/
def session : List Command → State → Option (State × List Response)
  | [], s => some (s, [])
  | w :: rest, s =>
    match commandStep w s with
    | .next t =>
      match session rest (responseTaken t) with
      | some (u, responses) => some (u, t.rsp.toList ++ responses)
      | none => none
    | .fault _ => none
    | .refused _ => none

/-- The commands one after another, each by `exec`. -/
def runInstrs : List Instr → State → Host.Outcome State Fault Refusal
  | [], s => .next s
  | i :: rest, s =>
    match exec i s with
    | .next t => runInstrs rest t
    | .fault r => .fault r
    | .refused r => .refused r

/-- The next move of the host is a reset. -/
def resetIsNext (s : State) : Prop := ∃ conv rest, s.host = .reset conv :: rest

/-- The states reachable from reset by any sequence of host moves, with the strap value of the last reset (10_state.md R30). -/
inductive ReachableSince : Bool → State → Prop where
  | start (conv : Bool) (host : List HostAction) (draws : Nat) : ReachableSince conv (State.afterReset conv host draws)
  | move {conv : Bool} {s t : State} (h : ReachableSince conv s) (hr : ¬ resetIsNext s) (hs : step s = .next t) :
      ReachableSince conv t
  | reset {conv conv' : Bool} {rest : List HostAction} {s t : State} (h : ReachableSince conv s)
      (hr : s.host = .reset conv' :: rest) (hs : step s = .next t) : ReachableSince conv' t

/-- The words of the canonical session: BUILD, then DUMP (70_reset_and_hazards.md R110). -/
def canonicalSession : List Command := encode .build :: dump.map encode

end Sys2Proof.Machine
end

