-- ==== Sys2Proof/Certificates/Slice0/Obligations.lean ====
section
/-! DEFINITION. What is to be proved about the engine. Each statement's docstring names the rule of spec/ it formalises. The table
of a statement about `exec` or `step` is the engine's own, `Config.sboxTable`, of which nothing is known; a statement about the
pure functions holds for every table. -/

open Sys2Proof Sys2Proof.Machine

/-! ## The command word -/

/-- 30_encoding.md section 8 (R58, derived by the spec from R47 and R49): every row of the table of worked encodings: the fields, the word, what it decodes to, the assembly line,
and for the illegal words the cause and the response word. -/
def Obligations.WorkedEncodings : Prop :=
  (∀ p ∈ ([(.sbox 0 0, 0b001, 0, 0, 0, 0x2000), (.sbox 0 63, 0b001, 0, 63, 0, 0x23F0),
      (.sbox 7 33, 0b001, 7, 33, 0, 0x3E10), (.cell 0 0 0, 0b010, 0, 0, 0, 0x4000),
      (.cell 4 16 15, 0b010, 4, 16, 15, 0x510F), (.cell 7 63 15, 0b010, 7, 63, 15, 0x5FFF),
      (.rdlat 0 0 0, 0b011, 0, 0, 0, 0x6000), (.rdlat 0 32 0, 0b011, 0, 32, 0, 0x6200),
      (.rdlat 4 16 15, 0b011, 4, 16, 15, 0x710F), (.rdlat 7 63 15, 0b011, 7, 63, 15, 0x7FFF),
      (.build, 0b100, 0, 0, 0, 0x8000), (.stat, 0b101, 0, 0, 0, 0xA000)] :
        List (AsmLine × BitVec 3 × SboxIndex × Input × Output × Command)),
    packWord p.2.1 p.2.2.1 p.2.2.2.1 p.2.2.2.2.1 = p.2.2.2.2.2 ∧ assemble p.1 = some p.2.2.2.2.2 ∧
      ∃ i, decode p.2.2.2.2.2 = .legal i ∧ i.toAsm = p.1) ∧
  (∀ p ∈ ([(0x0000, .reservedOp, 0x81), (0x2001, .fieldNotZero, 0x82), (0x8001, .fieldNotZero, 0x82),
      (0xA400, .fieldNotZero, 0x82), (0xFFFF, .reservedOp, 0x81)] : List (Nat × Cause × Response)),
    ∃ w, assemble (.word p.1) = some w ∧ decode w = .illegal p.2.1 ∧
      responseWord true (causeCode p.2.1) = p.2.2)

/-- 30_encoding.md R47: the four fields of a word and its payload, as numbers and as the LAT address. -/
def Obligations.CommandWordFields : Prop :=
  ∀ w : Command,
    w.toNat = 8192 * (opField w).toNat + 1024 * (boxField w).toNat + 16 * (inputField w).toNat + (outputField w).toNat ∧
      payloadField w = latAddress (boxField w) (inputField w) (outputField w) ∧
      packWord (opField w) (boxField w) (inputField w) (outputField w) = w

/-- 30_encoding.md R47, R49, R50: decoding the word of a well-formed command gives the command, for every command at every operand
value. -/
def Obligations.DecodeOfEncode : Prop := ∀ i : Instr, i.wellFormed = true → decode (encode i) = .legal i

/-- 30_encoding.md R49, R50: a legal word is the word of the command it decodes to, so no two words decode to one command. -/
def Obligations.EncodeOfDecode : Prop := ∀ (w : Command) (i : Instr), decode w = .legal i → encode i = w

/-- 30_encoding.md R49: the opcode map: what a word decodes to when a row selects it, an illegal word where none does, cause 1 for
the reserved operation codes, and at most one row for a word. -/
def Obligations.OpcodeMap : Prop :=
  (∀ w : Command,
    (w &&& 0xE00F = 0x2000 → decode w = .legal (.sbox (boxField w) (inputField w))) ∧
    (w &&& 0xE000 = 0x4000 → decode w = .legal (.cell (boxField w) (inputField w) (outputField w))) ∧
    (w &&& 0xE000 = 0x6000 → decode w = .legal (.rdlat (boxField w) (inputField w) (outputField w))) ∧
    (w &&& 0xFFFF = 0x8000 → decode w = .legal .build) ∧
    (w &&& 0xFFFF = 0xA000 → decode w = .legal .stat) ∧
    ((∀ r ∈ opcodeTable, r.selects w = false) → ∃ c, decode w = .illegal c) ∧
    ((opField w = 0b000 ∨ opField w = 0b110 ∨ opField w = 0b111) → decode w = .illegal .reservedOp)) ∧
  (∀ w : Command, ∀ r ∈ opcodeTable, ∀ r' ∈ opcodeTable, r.selects w = true → r'.selects w = true → r = r')

/-- 60_exceptions.md R95: exactly which words are illegal, and with which cause. -/
def Obligations.IllegalWordsByCause : Prop :=
  ∀ w : Command,
    (decode w = .illegal .reservedOp ↔ opField w = 0b000 ∨ opField w = 0b110 ∨ opField w = 0b111) ∧
    (decode w = .illegal .fieldNotZero ↔
      (opField w = 0b001 ∧ outputField w ≠ 0) ∨ (opField w = 0b100 ∧ payloadField w ≠ 0) ∨
        (opField w = 0b101 ∧ payloadField w ≠ 0))

/-- 30_encoding.md section 5 (R51, derived by the spec from R47, R49, R50): 16,898 legal words of the 65,536, and 48,638 illegal ones. -/
def Obligations.LegalWordCount : Prop :=
  ((List.range 65536).countP fun n => decodeTableWord 16 n != none) = 16898 ∧
    ((List.range 65536).countP fun n => decodeTableWord 16 n == none) = 48638

/-- 30_encoding.md R56: the assembler gives each command its word, any 16-bit word for `.word`, and an assembly error for every
line with an operand out of range. -/
def Obligations.AssemblerGivesTheEncoding : Prop :=
  (∀ i : Instr, assemble i.toAsm = some (encode i)) ∧
  (∀ w : Command, assemble (.word w.toNat) = some w) ∧
  (∀ l : AsmLine, l.wellFormed = false → assemble l = none)

/-- 30_encoding.md R57, 43_readout_status.md R93: the words of DUMP are 0x6000 to 0x7FFF, ascending. -/
def Obligations.DumpIsAscending : Prop :=
  dump.map encode = (List.range 8192).map fun k => BitVec.ofNat 16 (0x6000 + k)

/-! ## Addresses and the S-box lookup -/

/-- 40_sbox_lookup.md section 2 (R62): row and column of an input under the outer-bit convention. The order of the bits inside the
column is the spec's own decision (92_eei_decisions.md D7). -/
def Obligations.OuterBitRowAndColumn : Prop :=
  ∀ x : Input, (rowCol false x).1.toNat = 2 * (x.getLsbD 5).toNat + (x.getLsbD 0).toNat ∧
    (rowCol false x).2.toNat = (x.toNat / 2) % 16

/-- 40_sbox_lookup.md R63: row and column of an input under the flat convention. -/
def Obligations.FlatRowAndColumn : Prop :=
  ∀ x : Input, (rowCol true x).1.toNat = x.toNat / 16 ∧ (rowCol true x).2.toNat = x.toNat % 16

/-- 40_sbox_lookup.md R64: the lookup is the table entry at the row and column of the input, and under each convention every
entry of a table is reached by exactly one input. -/
def Obligations.LookupReachesEachEntryOnce : Prop :=
  (∀ (table : SboxTable) (conv : Bool) (box : SboxIndex) (x : Input),
    sboxOut table conv box x = table box (rowCol conv x).1 (rowCol conv x).2) ∧
  (∀ (conv : Bool) (row : Row) (col : Col), ∃! x : Input, rowCol conv x = (row, col))

/-- 20_memory.md R32: the ROM address as a number, and that its formation is a bijection. -/
def Obligations.RomAddressBijection : Prop :=
  (∀ (box : SboxIndex) (row : Row) (col : Col),
    (romAddress box row col).toNat = 64 * box.toNat + 16 * row.toNat + col.toNat ∧
      romBox (romAddress box row col) = box ∧ romRow (romAddress box row col) = row ∧
      romCol (romAddress box row col) = col) ∧
  (∀ ra : RomAddress, romAddress (romBox ra) (romRow ra) (romCol ra) = ra)

/-- 20_memory.md section 2 (R34, derived by the spec from R32, R62, R63): the ROM address for an S-box index and an input under each convention, bit by bit. -/
def Obligations.RomAddressByConvention : Prop :=
  ∀ (box : SboxIndex) (x : Input),
    (romAddress box (rowCol false x).1 (rowCol false x).2 =
      box ++ x.extractLsb' 5 1 ++ x.extractLsb' 0 1 ++ x.extractLsb' 1 4) ∧
    (romAddress box (rowCol true x).1 (rowCol true x).2 = box ++ x) ∧
    (romAddress box (rowCol true x).1 (rowCol true x).2).toNat = 64 * box.toNat + x.toNat

/-- 20_memory.md R35: the LAT address as a number, and that its formation is a bijection. -/
def Obligations.LatAddressBijection : Prop :=
  (∀ (box : SboxIndex) (alpha : Input) (beta : Output),
    (latAddress box alpha beta).toNat = 1024 * box.toNat + 16 * alpha.toNat + beta.toNat ∧
      latBox (latAddress box alpha beta) = box ∧ latAlpha (latAddress box alpha beta) = alpha ∧
      latBeta (latAddress box alpha beta) = beta) ∧
  (∀ a : LatAddress, latAddress (latBox a) (latAlpha a) (latBeta a) = a)

/-- 40_sbox_lookup.md R65: SBOX answers the table entry, zero-extended, with `err` = 0, and changes nothing else, in every state
and for every operand; a word with `b` not zero is illegal, cause 2; the rows and columns of the corner inputs; and the rule's
example on `DES_TABLE`. That the two conventions read the same entry exactly for the inputs 0, 31, 32, 63 is an inference that
the rule marks [derived] ("The two conventions read the same table entry exactly for the x with ..."), so the statement's basis
is derived. -/
def Obligations.SboxCommandRuns : Prop :=
  (∀ (box : SboxIndex) (x : Input) (s : State),
    exec (.sbox box x) s =
      .next { s with
        rsp := some ((0 : BitVec 4) ++
          Config.sboxTable box (rowCol s.status.conv x).1 (rowCol s.status.conv x).2) }) ∧
  (∀ w : Command, opField w = 0b001 →
    decode w = if outputField w = 0 then .legal (.sbox (boxField w) (inputField w)) else .illegal .fieldNotZero) ∧
  (∀ x : Input, rowCol false x = rowCol true x ↔ x = 0 ∨ x = 31 ∨ x = 32 ∨ x = 63) ∧
  (∀ conv : Bool, rowCol conv 0 = (0, 0) ∧ rowCol conv 63 = (3, 15) ∧ rowCol conv 31 = (1, 15) ∧ rowCol conv 32 = (2, 0)) ∧
  (encode (.sbox 0 1) = 0x2010 ∧ sboxOut desTable false 0 1 = 0 ∧ sboxOut desTable true 0 1 = 4)

/-- 40_sbox_lookup.md section 4 (R66, derived by the spec): how the two conventions relate, through the permutation `P` of the input bits. -/
def Obligations.ConventionsDifferByAPermutation : Prop :=
  (∀ v : Input, permuteInput v = v.extractLsb' 5 1 ++ v.extractLsb' 0 4 ++ v.extractLsb' 4 1) ∧
  Function.Bijective permuteInput ∧
  (∀ (table : SboxTable) (box : SboxIndex) (x : Input),
    sboxOut table true box x = sboxOut table false box (permuteInput x)) ∧
  (∀ alpha x : Input, parity (alpha &&& x) = parity (permuteInput alpha &&& permuteInput x)) ∧
  (∀ (table : SboxTable) (box : SboxIndex) (alpha : Input) (beta : Output),
    bias table true box alpha beta = bias table false box (permuteInput alpha) beta) ∧
  (∀ (table : SboxTable) (box : SboxIndex) (beta : Output),
    (allInputs.map fun alpha => bias table true box alpha beta).Perm
      (allInputs.map fun alpha => bias table false box alpha beta))

/-! ## The accumulator and CELL -/

/-- 41_lat_cell.md R70: the input inner product written out, and where it is 0. -/
def Obligations.InputInnerProduct : Prop :=
  (∀ alpha x : Input,
    ipIn alpha x = ((alpha.getLsbD 5 && x.getLsbD 5) ^^ (alpha.getLsbD 4 && x.getLsbD 4) ^^
      (alpha.getLsbD 3 && x.getLsbD 3) ^^ (alpha.getLsbD 2 && x.getLsbD 2) ^^
      (alpha.getLsbD 1 && x.getLsbD 1) ^^ (alpha.getLsbD 0 && x.getLsbD 0))) ∧
  (∀ x : Input, ipIn 0 x = false) ∧ (∀ alpha : Input, ipIn alpha 0 = false)

/-- 41_lat_cell.md R71: the output inner product written out, and its value for the masks 0 and 1. -/
def Obligations.OutputInnerProduct : Prop :=
  (∀ beta y : Output,
    ipOut beta y = ((beta.getLsbD 3 && y.getLsbD 3) ^^ (beta.getLsbD 2 && y.getLsbD 2) ^^
      (beta.getLsbD 1 && y.getLsbD 1) ^^ (beta.getLsbD 0 && y.getLsbD 0))) ∧
  (∀ y : Output, ipOut 0 y = false) ∧ (∀ y : Output, ipOut 1 y = y.getLsbD 0)

/-- 41_lat_cell.md R73: the count is the number of inputs with a match, at most 64, and CNT, cleared and run over the 64 inputs in
any order, ends at it. -/
def Obligations.CountIsOrderIndependent : Prop :=
  ∀ (table : SboxTable) (conv : Bool) (box : SboxIndex) (alpha : Input) (beta : Output),
    count table conv box alpha beta = (allInputs.filter fun x =>
      (ipIn alpha x ^^ ipOut beta (sboxOut table conv box x)) == false).length ∧
    count table conv box alpha beta ≤ 64 ∧
    ∀ (d : Datapath) (xs : List Input), xs.Perm allInputs →
      (xs.foldl (elementaryOp table conv box alpha beta) { d with cnt := 0 }).cnt.toNat =
        count table conv box alpha beta

/-- 10_state.md R18: from 0, CNT after any number of the inputs is the number of matches among them, at most 64, so the 7-bit add
never overflows. -/
def Obligations.MatchCounterNeverOverflows : Prop :=
  ∀ (table : SboxTable) (conv : Bool) (box : SboxIndex) (alpha : Input) (beta : Output) (d : Datapath) (k : Nat), k ≤ 64 →
    (((allInputs.take k).foldl (elementaryOp table conv box alpha beta) { d with cnt := 0 }).cnt.toNat =
      ((allInputs.take k).filter fun x => matchBit table conv box alpha beta x).length) ∧
    ((allInputs.take k).foldl (elementaryOp table conv box alpha beta) { d with cnt := 0 }).cnt.toNat ≤ k

/-- 41_lat_cell.md section 2 (R75, derived by the spec from R73): the parallel form: the count is the population count of the 64-bit match vector. -/
def Obligations.CountIsPopcountOfMatchVector : Prop :=
  ∀ (table : SboxTable) (conv : Bool) (box : SboxIndex) (alpha : Input) (beta : Output) (m : BitVec 64),
    (∀ x : Input, m.getLsbD x.toNat = matchBit table conv box alpha beta x) →
      count table conv box alpha beta = popcount m ∧ bias table conv box alpha beta = (popcount m : Int) - 32

/-- 41_lat_cell.md R76: the normaliser on every count 0 to 64. -/
def Obligations.NormaliserSubtracts32 : Prop :=
  ∀ cnt : Pattern, cnt.toNat ≤ 64 →
    normalise cnt = enc7 ((cnt.toNat : Int) - 32) ∧ (normalise cnt).toNat = (cnt.toNat + 96) % 128 ∧
      dec7 (normalise cnt) = (cnt.toNat : Int) - 32

/-- 00_scope.md R12: the signed encoding: `enc7` is n mod 128, `dec7` undoes it, and a value in -32 to 32 has a pattern in 0x00 to
0x20 or 0x60 to 0x7F. -/
def Obligations.SignedEncoding : Prop :=
  (∀ n : Int, -64 ≤ n → n ≤ 63 → ((enc7 n).toNat : Int) = n % 128 ∧ dec7 (enc7 n) = n) ∧
  (∀ p : Pattern, dec7 p = (if p.toNat < 64 then (p.toNat : Int) else (p.toNat : Int) - 128) ∧ enc7 (dec7 p) = p ∧
    (sextTo 8 p).toInt = dec7 p) ∧
  (∀ n : Int, -32 ≤ n → n ≤ 32 → (enc7 n).toNat ≤ 0x20 ∨ 0x60 ≤ (enc7 n).toNat)

/-- 41_lat_cell.md R77: CELL completes in every state and for every operand: it stores `enc7(Bias)` at the cell's LAT address,
answers it with `err` = 0, and changes no other entry, no flag, and neither the host's moves (log entry 7) nor the counter of free
values (log entry 5), which are the model's own fields. What it leaves in CMD, SEQ and CNT is not stated (log entry 4). -/
def Obligations.CellCommandRuns : Prop :=
  ∀ (box : SboxIndex) (alpha : Input) (beta : Output) (s : State),
    ∃ t, exec (.cell box alpha beta) s = .next t ∧
      t.rsp = some (responseWord false (enc7 (bias Config.sboxTable s.status.conv box alpha beta))) ∧
      latGet t.lat (latAddress box alpha beta) =
        some (enc7 ((count Config.sboxTable s.status.conv box alpha beta : Int) - 32)) ∧
      (∀ a, a ≠ latAddress box alpha beta → latGet t.lat a = latGet s.lat a) ∧
      t.status = s.status ∧ t.host = s.host ∧ t.draws = s.draws

/-- 41_lat_cell.md R77, corner cases and example: CELL s, 0, 0 stores and answers 0x20, CELL s, alpha, 0 with alpha not 0 stores and
answers 0x00, a second CELL leaves the LAT and the response of the first, and on `DES_TABLE` cell (4, 16, 15) counts 12. -/
def Obligations.CellCornerCases : Prop :=
  (∀ (box : SboxIndex) (s : State), ∃ t, exec (.cell box 0 0) s = .next t ∧ t.rsp = some 0x20 ∧
    latGet t.lat (latAddress box 0 0) = some 0x20) ∧
  (∀ (box : SboxIndex) (alpha : Input) (s : State), alpha ≠ 0 → ∃ t, exec (.cell box alpha 0) s = .next t ∧
    t.rsp = some 0x00 ∧ latGet t.lat (latAddress box alpha 0) = some 0x00) ∧
  (∀ (box : SboxIndex) (alpha : Input) (beta : Output) (s : State), ∃ t u, exec (.cell box alpha beta) s = .next t ∧
    exec (.cell box alpha beta) t = .next u ∧ u.rsp = t.rsp ∧ ∀ a, latGet u.lat a = latGet t.lat a) ∧
  (encode (.cell 4 16 15) = 0x510F ∧ (latAddress 4 16 15).toNat = 4367 ∧ count desTable false 4 16 15 = 12 ∧
    enc7 (bias desTable false 4 16 15) = 0x6C)

/-- 41_lat_cell.md section 5 (R78 items 1 to 4, derived by the spec from R70 to R74): the trivial approximation, the zero column, the range with its extremes, and the row alpha = 0,
for every table. -/
def Obligations.BiasIdentities : Prop :=
  ∀ (table : SboxTable) (conv : Bool) (box : SboxIndex),
    bias table conv box 0 0 = 32 ∧
    (∀ alpha : Input, alpha ≠ 0 → bias table conv box alpha 0 = 0) ∧
    (∀ (alpha : Input) (beta : Output),
      -32 ≤ bias table conv box alpha beta ∧ bias table conv box alpha beta ≤ 32 ∧
      (bias table conv box alpha beta = -32 ↔ ∀ x, matchBit table conv box alpha beta x = false) ∧
      (bias table conv box alpha beta = 32 ↔ ∀ x, matchBit table conv box alpha beta x = true)) ∧
    (∀ beta : Output,
      bias table conv box 0 beta =
        ((allInputs.filter fun v => parity (beta &&& table box (flatRow v) (flatCol v)) == false).length : Int) - 32)

/-- 41_lat_cell.md section 5 (R78 items 5 and 6, derived by the spec from R70 to R74; general knowledge G2): in every column the squares of the biases sum to 1024 and the biases to 32 or -32, for every
table. -/
def Obligations.BiasColumnSums : Prop :=
  ∀ (table : SboxTable) (conv : Bool) (box : SboxIndex) (beta : Output),
    (allInputs.map fun alpha => bias table conv box alpha beta ^ 2).sum = 1024 ∧
    (allInputs.map fun alpha => bias table conv box alpha beta).sum =
      if ipOut beta (sboxOut table conv box 0) = false then 32 else -32

/-- 41_lat_cell.md R79: what CELL stores and answers depends on the table, the convention and the operands alone. -/
def Obligations.CellIsPure : Prop :=
  ∀ (box : SboxIndex) (alpha : Input) (beta : Output) (s s' : State), s.status.conv = s'.status.conv →
    ∃ t t', exec (.cell box alpha beta) s = .next t ∧ exec (.cell box alpha beta) s' = .next t' ∧ t.rsp = t'.rsp ∧
      latGet t.lat (latAddress box alpha beta) = latGet t'.lat (latAddress box alpha beta)

/-! ## BUILD -/

/-- 42_lat_build.md R83, R84: BUILD completes in every state: every LAT entry holds `enc7(Bias)` of its cell, DONE is set, CONV and
ERR are as before, the response is 0x00, and the model's own fields, the host's moves (log entry 7) and the counter of free values
(log entry 5), are as before. What it leaves in CMD, SEQ and CNT is not stated (log entry 4). -/
def Obligations.BuildCommandRuns : Prop :=
  ∀ s : State, ∃ t, exec .build s = .next t ∧
    (∀ (box : SboxIndex) (alpha : Input) (beta : Output), latGet t.lat (latAddress box alpha beta) =
      some (enc7 ((count Config.sboxTable s.status.conv box alpha beta : Int) - 32))) ∧
    allWritten t ∧ t.status = { conv := s.status.conv, done := true, err := s.status.err } ∧ t.rsp = some 0x00 ∧
    t.host = s.host ∧ t.draws = s.draws

/-- 42_lat_build.md R83, corner case: BUILD when DONE = 1, in a state that meets the invariant, leaves the LAT and STATUS as they
were. -/
def Obligations.BuildAgainChangesNothing : Prop :=
  ∀ s : State, StateInv s → s.status.done = true →
    ∃ t, exec .build s = .next t ∧ t.lat = s.lat ∧ t.status = s.status ∧ t.rsp = some 0x00

/-- 42_lat_build.md R83, example: from the state after `Reset(conv)`, BUILD answers 0x00, then STAT answers 0x02 or 0x03, and RDLAT
s, 0, 0 answers 0x20 for every s. -/
def Obligations.BuildAfterReset : Prop :=
  ∀ (conv : Bool) (host : List HostAction) (draws : Nat),
    ∃ t, exec .build (State.afterReset conv host draws) = .next t ∧ t.rsp = some 0x00 ∧
      (∃ u, exec .stat t = .next u ∧ u.rsp = some (if conv then 0x03 else 0x02)) ∧
      ∀ box : SboxIndex, ∃ u, exec (.rdlat box 0 0) t = .next u ∧ u.rsp = some 0x20

/-- 42_lat_build.md R82: the 19-bit sequencer, run one elementary operation at a time over all 524,288 values of SEQ, leaves the
same state as the loop nest. -/
def Obligations.SequencerDoesTheLoopNest : Prop :=
  ∀ (table : SboxTable) (s : State), sequencerBuild table s = buildTable table s

/-- 42_lat_build.md section 6 (R87, derived by the spec from R83, R77, R35): BUILD and the 8192 CELL commands, one per triple in any order, leave the same LAT, and differ in DONE
only. -/
def Obligations.BuildEqualsCellsInAnyOrder : Prop :=
  ∀ (s : State) (cells : List (SboxIndex × Input × Output)), latWf s.lat = true → cells.Perm allCells →
    ∃ t u, runInstrs (cells.map fun c => .cell c.1 c.2.1 c.2.2) s = .next t ∧ exec .build s = .next u ∧
      t.lat = u.lat ∧ t.status = s.status ∧ u.status = { t.status with done := true } ∧
      ∀ (box : SboxIndex) (alpha : Input) (beta : Output), ∃ t' u', exec (.rdlat box alpha beta) t = .next t' ∧
        exec (.rdlat box alpha beta) u = .next u' ∧ t'.rsp = u'.rsp

/-! ## RDLAT and STAT -/

/-- 43_readout_status.md R89, 20_memory.md R36: RDLAT of a written entry answers the stored pattern with `err` = 0 and changes
nothing else. -/
def Obligations.RdlatOfWrittenEntry : Prop :=
  ∀ (box : SboxIndex) (alpha : Input) (beta : Output) (s : State) (v : Pattern),
    latGet s.lat (latAddress box alpha beta) = some v →
      exec (.rdlat box alpha beta) s = .next { s with rsp := some (responseWord false v) }

/-- 43_readout_status.md R90: RDLAT of an unwritten entry answers with `err` = 0 and some data, of which nothing is said (a free value,
log entry 5, which also says that the model takes the value and not the refusal), and changes no entry and no flag: the entry
stays unwritten. -/
def Obligations.RdlatOfUnwrittenEntry : Prop :=
  ∀ (box : SboxIndex) (alpha : Input) (beta : Output) (s : State), latGet s.lat (latAddress box alpha beta) = none →
    ∃ v t, exec (.rdlat box alpha beta) s = .next t ∧ t.rsp = some (responseWord false v) ∧ t.lat = s.lat ∧
      t.status = s.status ∧ t.dp = s.dp ∧ t.host = s.host

/-- 43_readout_status.md R89, corner case, with 10_state.md R30 (a): in a state that meets the invariant, RDLAT of a written entry
answers `enc7(Bias)` of its cell. -/
def Obligations.RdlatAnswersTheBias : Prop :=
  ∀ (box : SboxIndex) (alpha : Input) (beta : Output) (s : State), StateInv s →
    (latGet s.lat (latAddress box alpha beta)).isSome →
      exec (.rdlat box alpha beta) s =
        .next { s with rsp := some (responseWord false (enc7 (bias Config.sboxTable s.status.conv box alpha beta))) }

/-- 43_readout_status.md R91, 10_state.md R22: STAT answers the status register with `err` = 0, CONV in bit 0, DONE in bit 1, ERR in
bit 2 and zero above, and changes nothing else; its word with a payload is illegal, cause 2. -/
def Obligations.StatCommandRuns : Prop :=
  (∀ s : State, ∃ r, exec .stat s = .next { s with rsp := some r } ∧
    r.toNat = s.status.conv.toNat + 2 * s.status.done.toNat + 4 * s.status.err.toNat ∧
    responseErr r = false ∧ (responseData r).getLsbD 0 = s.status.conv ∧ (responseData r).getLsbD 1 = s.status.done ∧
    (responseData r).getLsbD 2 = s.status.err ∧ (responseData r).extractLsb' 3 4 = 0) ∧
  (∀ w : Command, opField w = 0b101 → decode w = if payloadField w = 0 then .legal .stat else .illegal .fieldNotZero)

/-! ## Errors, the host and reset -/

/-- 60_exceptions.md R96: the error step: ERR is set, the response is 0x81 or 0x82 by the cause, and no LAT entry, not DONE and not
CONV changes. -/
def Obligations.ErrorStep : Prop :=
  ∀ (s : State) (w : Command) (rest : List HostAction) (c : Cause), s.host = .command w :: rest → s.rsp = none →
    decode w = .illegal c →
      ∃ t, step s = .next t ∧ t.lat = s.lat ∧
        t.status = { conv := s.status.conv, done := s.status.done, err := true } ∧
        t.rsp = some (match c with | .reservedOp => 0x81 | .fieldNotZero => 0x82) ∧ t.host = rest

/-- 60_exceptions.md R94: a legal command never raises anything, for any operands, any table, either convention and any state. -/
def Obligations.LegalCommandsNeverFail : Prop :=
  ∀ (i : Instr) (s : State), ∃ t r, exec i s = .next t ∧ t.rsp = some r ∧ responseErr r = false ∧
    t.status.err = s.status.err

/-- 60_exceptions.md R101, 70_reset_and_hazards.md R115: there is no state in which the engine is stuck: every step completes.
That RDLAT of an unwritten entry completes with a value is log entry 5; what a step without a command does is log entries 8
and 14. -/
def Obligations.EveryStepCompletes : Prop := ∀ s : State, ∃ t, step s = .next t

/-- 10_state.md R25: nothing but an illegal command sets ERR, and nothing but reset clears it. -/
def Obligations.ErrIsSticky : Prop :=
  ∀ s t : State, step s = .next t →
    (s.status.err = true → ¬ resetIsNext s → t.status.err = true) ∧
    (s.status.err = false → t.status.err = true →
      ∃ w rest c, s.host = .command w :: rest ∧ s.rsp = none ∧ decode w = .illegal c)

/-- 10_state.md R24: nothing but BUILD sets DONE, and nothing but reset clears it. -/
def Obligations.DoneIsSetByBuildOnly : Prop :=
  ∀ s t : State, step s = .next t →
    (s.status.done = true → ¬ resetIsNext s → t.status.done = true) ∧
    (s.status.done = false → t.status.done = true → ∃ rest, s.host = .command 0x8000 :: rest ∧ s.rsp = none)

/-- 10_state.md R23, 70_reset_and_hazards.md R107: CONV is the strap of a reset, and no step but reset changes it. -/
def Obligations.ConventionChangesOnlyAtReset : Prop :=
  ∀ s t : State, step s = .next t →
    (¬ resetIsNext s → t.status.conv = s.status.conv) ∧
    (∀ conv rest, s.host = .reset conv :: rest → t.status.conv = conv)

/-- 60_exceptions.md R97: over any command words from a state with ERR = 0, ERR is 0 at the end exactly where no response had
`err` = 1. -/
def Obligations.ErrRecordsTheResponses : Prop :=
  ∀ (words : List Command) (s u : State) (responses : List Response), session words s = some (u, responses) →
    s.status.err = false → (u.status.err = false ↔ ∀ r ∈ responses, responseErr r = false)

/-- 30_encoding.md R55: exactly one response for each accepted command, legal or illegal, and no step but a command's makes a
response appear. -/
def Obligations.OneResponsePerCommand : Prop :=
  (∀ (words : List Command) (s : State), ∃ u responses, session words s = some (u, responses) ∧
    responses.length = words.length) ∧
  (∀ s t : State, step s = .next t → s.rsp = none → t.rsp ≠ none → ∃ w rest, s.host = .command w :: rest)

/-- 20_memory.md R40, 30_encoding.md R46: while a response waits, a command that is offered is not accepted: the step is the taking
of the response (the model's choice, log entry 8), and the command stays the host's next move. -/
def Obligations.CommandWaitsForTheResponse : Prop :=
  ∀ (s : State) (w : Command) (rest : List HostAction) (r : Response), s.host = .command w :: rest → s.rsp = some r →
    step s = .next { s with rsp := none }

/-- 00_scope.md R7, 10_state.md R20, 30_encoding.md R50: a step on an accepted legal word is `exec` of the command it decodes to,
with CMD loaded before. The release after it is no rule of the spec but the model's choice, log entry 4: `releaseDatapath` sets
CMD, SEQ and CNT to free values and moves the counter of free values on; the rules say only that what the three registers hold
after a step is not observable. That the host's moves are a list whose head is consumed is log entry 7. -/
def Obligations.StepRunsTheDecodedCommand : Prop :=
  ∀ (s : State) (w : Command) (rest : List HostAction) (i : Instr), s.host = .command w :: rest → s.rsp = none →
    decode w = .legal i →
      step s = mapNext releaseDatapath (exec i { s with host := rest, dp := { s.dp with cmd := w } })

/-- 10_state.md R29, 70_reset_and_hazards.md R106: a reset move from any state: CONV is the strap, DONE and ERR are 0, every LAT
entry is unwritten, no response is offered, and nothing of a response that waited is left. -/
def Obligations.ResetStep : Prop :=
  ∀ (s : State) (conv : Bool) (rest : List HostAction), s.host = .reset conv :: rest →
    ∃ t, step s = .next t ∧ t.status = { conv := conv, done := false, err := false } ∧
      (∀ a, latGet t.lat a = none) ∧ t.rsp = none ∧ t.host = rest

/-- 10_state.md R29: the state right after reset has DONE = ERR = 0, every LAT entry unwritten, reserved STATUS bits zero, and is
ready for a command. That CONV is there `Config.strap` is log entry 2. -/
def Obligations.ResetStateValues : Prop :=
  State.reset.status.done = false ∧ State.reset.status.err = false ∧ State.reset.status.conv = Config.strap ∧
    (∀ a, latGet State.reset.lat a = none) ∧ (statusWord State.reset.status).extractLsb' 3 4 = 0 ∧
    cmdReady State.reset = true

/-! ## The whole machine -/

/-- 20_memory.md R37: a write stores at its address and changes no other entry, and the only commands that write are CELL, to its own
entry, and BUILD, each storing `enc7(Bias)` of the cell the address names. -/
def Obligations.OnlyCellAndBuildWriteTheLat : Prop :=
  (∀ (a : LatAddress) (v : Pattern) (s : State), latGet (latWrite a v s).lat a = some v ∧
    ∀ b, b ≠ a → latGet (latWrite a v s).lat b = latGet s.lat b) ∧
  (∀ (i : Instr) (s t : State) (a : LatAddress), exec i s = .next t → latGet t.lat a ≠ latGet s.lat a →
    latGet t.lat a = some (enc7 (bias Config.sboxTable s.status.conv (latBox a) (latAlpha a) (latBeta a))) ∧
      (i = .build ∨ i = .cell (latBox a) (latAlpha a) (latBeta a)))

/-- 10_state.md section 10, from the reasons R30 gives for (b): no step makes a written entry unwritten except reset. -/
def Obligations.WrittenStaysWritten : Prop :=
  ∀ (s t : State) (a : LatAddress), step s = .next t → ¬ resetIsNext s → (latGet s.lat a).isSome →
    (latGet t.lat a).isSome

/-- 10_state.md R17: what CMD, SEQ and CNT hold before a step changes nothing that the step does, those registers apart. That the
two outcomes are equal also on RDLAT of an unwritten entry is the model's choice, log entry 5: both runs draw at the same counter
of free values, where the hardware need not answer the same twice. That the registers stand in State at all is log entry 4. -/
def Obligations.DatapathRegistersUnobservable : Prop :=
  ∀ (s : State) (d : Datapath),
    mapNext forgetDatapath (step { s with dp := d }) = mapNext forgetDatapath (step s)

/-- 10_state.md section 10 (R30 (a) and (b), derived by the spec), 30_encoding.md R54, and the canonical form of the LAT, which is the
model's own (log entry 6): every step keeps the invariant, from every state that meets it. -/
def Obligations.EveryStepKeepsTheInvariant : Prop := ∀ s t : State, StateInv s → step s = .next t → StateInv t

/-- 10_state.md R29 and section 10: the state after `Reset(conv)` meets the invariant, and so does the state right after reset. -/
def Obligations.ResetMeetsTheInvariant : Prop :=
  (∀ (conv : Bool) (host : List HostAction) (draws : Nat), StateInv (State.afterReset conv host draws)) ∧ StateInv State.reset

/-- 10_state.md section 10 (R30, derived by the spec): (a) to (d) in every state reachable from reset by any sequence of host moves. -/
def Obligations.ReachableStates : Prop :=
  ∀ (conv : Bool) (s : State), ReachableSince conv s →
    (∀ box alpha beta v, latGet s.lat (latAddress box alpha beta) = some v →
      v = enc7 (bias Config.sboxTable s.status.conv box alpha beta)) ∧
    (s.status.done = true → ∀ a, (latGet s.lat a).isSome) ∧
    (statusWord s.status).extractLsb' 3 4 = 0 ∧
    s.status.conv = conv

/-- 70_reset_and_hazards.md section 2 (R110, derived by the spec): the canonical session from the state after `Reset(conv)`: BUILD's response 0x00, then the 8192
responses, `enc7(Bias)` in ascending address order, whatever the host's further moves and the counter of free values (the model's
own fields, log entries 7 and 5). -/
def Obligations.CanonicalSessionTable : Prop :=
  ∀ (conv : Bool) (host : List HostAction) (draws : Nat),
    ∃ u, session canonicalSession (State.afterReset conv host draws) =
      some (u, 0x00 :: (List.range 8192).map fun k =>
        let a := BitVec.ofNat 13 k
        responseWord false (enc7 (bias Config.sboxTable conv (latBox a) (latAlpha a) (latBeta a))))
end

