-- ==== Sys2Proof/Laws/Fields.lean ====
section
/-! SUPPORT. Packing fields and taking them out again: command words, ROM and LAT addresses, SEQ. -/

namespace Sys2Proof

@[simp] theorem opField_packWord (op : BitVec 3) (box : SboxIndex) (a : Input) (b : Output) :
    opField (packWord op box a b) = op := by
  simp only [opField, packWord]
  rw [BitVec.extractLsb'_append_eq_of_le (by omega),
    BitVec.extractLsb'_append_eq_of_le (by omega),
    BitVec.extractLsb'_append_eq_of_le (by omega)]
  simp

@[simp] theorem boxField_packWord (op : BitVec 3) (box : SboxIndex) (a : Input) (b : Output) :
    boxField (packWord op box a b) = box := by
  simp only [boxField, packWord]
  rw [BitVec.extractLsb'_append_eq_of_le (by omega),
    BitVec.extractLsb'_append_eq_of_le (by omega),
    BitVec.extractLsb'_append_eq_of_add_le (by omega)]
  simp

@[simp] theorem inputField_packWord (op : BitVec 3) (box : SboxIndex) (a : Input) (b : Output) :
    inputField (packWord op box a b) = a := by
  simp only [inputField, packWord]
  rw [BitVec.extractLsb'_append_eq_of_le (by omega),
    BitVec.extractLsb'_append_eq_of_add_le (by omega)]
  simp

@[simp] theorem outputField_packWord (op : BitVec 3) (box : SboxIndex) (a : Input) (b : Output) :
    outputField (packWord op box a b) = b := by
  simp only [outputField, packWord]
  rw [BitVec.extractLsb'_append_eq_of_add_le (by omega)]
  simp

/-- Every word is made of its four fields (30_encoding.md R47). -/
theorem packWord_fields (w : Command) : packWord (opField w) (boxField w) (inputField w) (outputField w) = w := by
  simp only [opField, boxField, inputField, outputField, packWord]
  rw [BitVec.extractLsb'_append_extractLsb'_eq_extractLsb' (by omega),
    BitVec.extractLsb'_append_extractLsb'_eq_extractLsb' (by omega),
    BitVec.extractLsb'_append_extractLsb'_eq_extractLsb' (by omega)]
  simp

/-- The payload is the LAT address of the fields, bit for bit (30_encoding.md R47). -/
theorem payloadField_eq (w : Command) :
    payloadField w = Machine.latAddress (boxField w) (inputField w) (outputField w) := by
  simp only [payloadField, boxField, inputField, outputField, Machine.latAddress]
  rw [BitVec.extractLsb'_append_extractLsb'_eq_extractLsb' (by omega),
    BitVec.extractLsb'_append_extractLsb'_eq_extractLsb' (by omega)]

/-- Two words are equal exactly where their four fields are. -/
theorem word_ext {w v : Command} :
    w = v ↔ opField w = opField v ∧ boxField w = boxField v ∧ inputField w = inputField v ∧ outputField w = outputField v := by
  refine ⟨fun h => by simp [h], fun ⟨h1, h2, h3, h4⟩ => ?_⟩
  rw [← packWord_fields w, ← packWord_fields v, h1, h2, h3, h4]

@[simp] theorem opField_and (w m : Command) : opField (w &&& m) = opField w &&& opField m := BitVec.extractLsb'_and
@[simp] theorem boxField_and (w m : Command) : boxField (w &&& m) = boxField w &&& boxField m := BitVec.extractLsb'_and
@[simp] theorem inputField_and (w m : Command) : inputField (w &&& m) = inputField w &&& inputField m := BitVec.extractLsb'_and
@[simp] theorem outputField_and (w m : Command) : outputField (w &&& m) = outputField w &&& outputField m :=
  BitVec.extractLsb'_and

namespace Machine

@[simp] theorem romBox_romAddress (box : SboxIndex) (row : Row) (col : Col) :
    romBox (romAddress box row col) = box := by
  simp only [romBox, romAddress]
  rw [BitVec.extractLsb'_append_eq_of_le (by omega),
    BitVec.extractLsb'_append_eq_of_le (by omega)]
  simp

@[simp] theorem romRow_romAddress (box : SboxIndex) (row : Row) (col : Col) :
    romRow (romAddress box row col) = row := by
  simp only [romRow, romAddress]
  rw [BitVec.extractLsb'_append_eq_of_le (by omega),
    BitVec.extractLsb'_append_eq_of_add_le (by omega)]
  simp

@[simp] theorem romCol_romAddress (box : SboxIndex) (row : Row) (col : Col) :
    romCol (romAddress box row col) = col := by
  simp only [romCol, romAddress]
  rw [BitVec.extractLsb'_append_eq_of_add_le (by omega)]
  simp

@[simp] theorem romAddress_fields (ra : RomAddress) : romAddress (romBox ra) (romRow ra) (romCol ra) = ra := by
  simp only [romBox, romRow, romCol, romAddress]
  rw [BitVec.extractLsb'_append_extractLsb'_eq_extractLsb' (by omega),
    BitVec.extractLsb'_append_extractLsb'_eq_extractLsb' (by omega)]
  simp

@[simp] theorem latBox_latAddress (box : SboxIndex) (alpha : Input) (beta : Output) :
    latBox (latAddress box alpha beta) = box := by
  simp only [latBox, latAddress]
  rw [BitVec.extractLsb'_append_eq_of_le (by omega),
    BitVec.extractLsb'_append_eq_of_le (by omega)]
  simp

@[simp] theorem latAlpha_latAddress (box : SboxIndex) (alpha : Input) (beta : Output) :
    latAlpha (latAddress box alpha beta) = alpha := by
  simp only [latAlpha, latAddress]
  rw [BitVec.extractLsb'_append_eq_of_le (by omega),
    BitVec.extractLsb'_append_eq_of_add_le (by omega)]
  simp

@[simp] theorem latBeta_latAddress (box : SboxIndex) (alpha : Input) (beta : Output) :
    latBeta (latAddress box alpha beta) = beta := by
  simp only [latBeta, latAddress]
  rw [BitVec.extractLsb'_append_eq_of_add_le (by omega)]
  simp

@[simp] theorem latAddress_fields (a : LatAddress) : latAddress (latBox a) (latAlpha a) (latBeta a) = a := by
  simp only [latBox, latAlpha, latBeta, latAddress]
  rw [BitVec.extractLsb'_append_extractLsb'_eq_extractLsb' (by omega),
    BitVec.extractLsb'_append_extractLsb'_eq_extractLsb' (by omega)]
  simp

/-- Distinct cells have distinct LAT addresses (20_memory.md R35). -/
theorem latAddress_inj {box box' : SboxIndex} {alpha alpha' : Input} {beta beta' : Output} :
    latAddress box alpha beta = latAddress box' alpha' beta' ↔ box = box' ∧ alpha = alpha' ∧ beta = beta' := by
  refine ⟨fun h => ⟨?_, ?_, ?_⟩, fun ⟨h1, h2, h3⟩ => by rw [h1, h2, h3]⟩
  · simpa using congrArg latBox h
  · simpa using congrArg latAlpha h
  · simpa using congrArg latBeta h

@[simp] theorem seqBox_seqPack (box : SboxIndex) (alpha : Input) (beta : Output) (x : Input) :
    seqBox (seqPack box alpha beta x) = box := by
  simp only [seqBox, seqPack]
  rw [BitVec.extractLsb'_append_eq_of_le (by omega),
    BitVec.extractLsb'_append_eq_of_le (by omega),
    BitVec.extractLsb'_append_eq_of_le (by omega)]
  simp

@[simp] theorem seqAlpha_seqPack (box : SboxIndex) (alpha : Input) (beta : Output) (x : Input) :
    seqAlpha (seqPack box alpha beta x) = alpha := by
  simp only [seqAlpha, seqPack]
  rw [BitVec.extractLsb'_append_eq_of_le (by omega),
    BitVec.extractLsb'_append_eq_of_le (by omega),
    BitVec.extractLsb'_append_eq_of_add_le (by omega)]
  simp

@[simp] theorem seqBeta_seqPack (box : SboxIndex) (alpha : Input) (beta : Output) (x : Input) :
    seqBeta (seqPack box alpha beta x) = beta := by
  simp only [seqBeta, seqPack]
  rw [BitVec.extractLsb'_append_eq_of_le (by omega),
    BitVec.extractLsb'_append_eq_of_add_le (by omega)]
  simp

@[simp] theorem seqX_seqPack (box : SboxIndex) (alpha : Input) (beta : Output) (x : Input) :
    seqX (seqPack box alpha beta x) = x := by
  simp only [seqX, seqPack]
  rw [BitVec.extractLsb'_append_eq_of_add_le (by omega)]
  simp

@[simp] theorem seqCell_seqPack (box : SboxIndex) (alpha : Input) (beta : Output) (x : Input) :
    seqCell (seqPack box alpha beta x) = latAddress box alpha beta := by
  simp only [seqCell, seqPack, latAddress]
  rw [BitVec.extractLsb'_append_eq_of_le (by omega)]
  simp

end Machine

/-- The payload is zero exactly where its three fields are (30_encoding.md R47). -/
theorem payloadField_eq_zero (w : Command) :
    payloadField w = 0#13 ↔ boxField w = 0#3 ∧ inputField w = 0#6 ∧ outputField w = 0#4 := by
  rw [payloadField_eq, show (0#13 : LatAddress) = Machine.latAddress 0#3 0#6 0#4 from rfl, Machine.latAddress_inj]

end Sys2Proof
end

