-- ==== Sys2Proof/Laws/State.lean ====
section
/-! SUPPORT. One lemma per field per update of State, true by rfl, so that no later proof unfolds a record update. Each is proved by
unfolding its one operation, not by the term rfl, so that simp rewrites with it step by step: a proof term that leaves such a step
to definitional unfolding makes Lean's kernel compare `s` with the LAT that BUILD leaves, 8192 cells deep. For the same reason
use these lemmas and the equations of `exec` in Laws/Step.lean, not rfl or decide, on states that a cell's run or BUILD made. -/

namespace Sys2Proof.Machine

variable (s : State)

@[simp] theorem latWrite_lat (a : LatAddress) (v : Pattern) :
    (latWrite a v s).lat = latPut s.lat a v := by
  rw [latWrite]
@[simp] theorem latWrite_status (a : LatAddress) (v : Pattern) :
    (latWrite a v s).status = s.status := by
  rw [latWrite]
@[simp] theorem latWrite_dp (a : LatAddress) (v : Pattern) :
    (latWrite a v s).dp = s.dp := by
  rw [latWrite]
@[simp] theorem latWrite_rsp (a : LatAddress) (v : Pattern) :
    (latWrite a v s).rsp = s.rsp := by
  rw [latWrite]
@[simp] theorem latWrite_host (a : LatAddress) (v : Pattern) :
    (latWrite a v s).host = s.host := by
  rw [latWrite]
@[simp] theorem latWrite_draws (a : LatAddress) (v : Pattern) :
    (latWrite a v s).draws = s.draws := by
  rw [latWrite]

@[simp] theorem latReadState_lat (a : LatAddress) :
    (latReadState a s).lat = s.lat := by
  rw [latReadState]
@[simp] theorem latReadState_status (a : LatAddress) :
    (latReadState a s).status = s.status := by
  rw [latReadState]
@[simp] theorem latReadState_dp (a : LatAddress) :
    (latReadState a s).dp = s.dp := by
  rw [latReadState]
@[simp] theorem latReadState_rsp (a : LatAddress) :
    (latReadState a s).rsp = s.rsp := by
  rw [latReadState]
@[simp] theorem latReadState_host (a : LatAddress) :
    (latReadState a s).host = s.host := by
  rw [latReadState]
@[simp] theorem latReadState_draws (a : LatAddress) :
    (latReadState a s).draws = if (latGet s.lat a).isSome then s.draws else s.draws + 1 := by
  rw [latReadState]

@[simp] theorem respond_lat (err : Bool) (data : Pattern) :
    (respond err data s).lat = s.lat := by
  rw [respond]
@[simp] theorem respond_status (err : Bool) (data : Pattern) :
    (respond err data s).status = s.status := by
  rw [respond]
@[simp] theorem respond_dp (err : Bool) (data : Pattern) :
    (respond err data s).dp = s.dp := by
  rw [respond]
@[simp] theorem respond_rsp (err : Bool) (data : Pattern) :
    (respond err data s).rsp = some (responseWord err data) := by
  rw [respond]
@[simp] theorem respond_host (err : Bool) (data : Pattern) :
    (respond err data s).host = s.host := by
  rw [respond]
@[simp] theorem respond_draws (err : Bool) (data : Pattern) :
    (respond err data s).draws = s.draws := by
  rw [respond]

@[simp] theorem setDone_lat :
    (setDone s).lat = s.lat := by
  rw [setDone]
@[simp] theorem setDone_status :
    (setDone s).status = { s.status with done := true } := by
  rw [setDone]
@[simp] theorem setDone_dp :
    (setDone s).dp = s.dp := by
  rw [setDone]
@[simp] theorem setDone_rsp :
    (setDone s).rsp = s.rsp := by
  rw [setDone]
@[simp] theorem setDone_host :
    (setDone s).host = s.host := by
  rw [setDone]
@[simp] theorem setDone_draws :
    (setDone s).draws = s.draws := by
  rw [setDone]

@[simp] theorem setErr_lat :
    (setErr s).lat = s.lat := by
  rw [setErr]
@[simp] theorem setErr_status :
    (setErr s).status = { s.status with err := true } := by
  rw [setErr]
@[simp] theorem setErr_dp :
    (setErr s).dp = s.dp := by
  rw [setErr]
@[simp] theorem setErr_rsp :
    (setErr s).rsp = s.rsp := by
  rw [setErr]
@[simp] theorem setErr_host :
    (setErr s).host = s.host := by
  rw [setErr]
@[simp] theorem setErr_draws :
    (setErr s).draws = s.draws := by
  rw [setErr]

@[simp] theorem responseTaken_lat :
    (responseTaken s).lat = s.lat := by
  rw [responseTaken]
@[simp] theorem responseTaken_status :
    (responseTaken s).status = s.status := by
  rw [responseTaken]
@[simp] theorem responseTaken_dp :
    (responseTaken s).dp = s.dp := by
  rw [responseTaken]
@[simp] theorem responseTaken_rsp :
    (responseTaken s).rsp = none := by
  rw [responseTaken]
@[simp] theorem responseTaken_host :
    (responseTaken s).host = s.host := by
  rw [responseTaken]
@[simp] theorem responseTaken_draws :
    (responseTaken s).draws = s.draws := by
  rw [responseTaken]

@[simp] theorem hostMoves_lat (rest : List HostAction) :
    (hostMoves rest s).lat = s.lat := by
  rw [hostMoves]
@[simp] theorem hostMoves_status (rest : List HostAction) :
    (hostMoves rest s).status = s.status := by
  rw [hostMoves]
@[simp] theorem hostMoves_dp (rest : List HostAction) :
    (hostMoves rest s).dp = s.dp := by
  rw [hostMoves]
@[simp] theorem hostMoves_rsp (rest : List HostAction) :
    (hostMoves rest s).rsp = s.rsp := by
  rw [hostMoves]
@[simp] theorem hostMoves_host (rest : List HostAction) :
    (hostMoves rest s).host = rest := by
  rw [hostMoves]
@[simp] theorem hostMoves_draws (rest : List HostAction) :
    (hostMoves rest s).draws = s.draws := by
  rw [hostMoves]

@[simp] theorem acceptCommand_lat (w : Command) :
    (acceptCommand w s).lat = s.lat := by
  rw [acceptCommand]
@[simp] theorem acceptCommand_status (w : Command) :
    (acceptCommand w s).status = s.status := by
  rw [acceptCommand]
@[simp] theorem acceptCommand_dp (w : Command) :
    (acceptCommand w s).dp = { s.dp with cmd := w } := by
  rw [acceptCommand]
@[simp] theorem acceptCommand_rsp (w : Command) :
    (acceptCommand w s).rsp = s.rsp := by
  rw [acceptCommand]
@[simp] theorem acceptCommand_host (w : Command) :
    (acceptCommand w s).host = s.host := by
  rw [acceptCommand]
@[simp] theorem acceptCommand_draws (w : Command) :
    (acceptCommand w s).draws = s.draws := by
  rw [acceptCommand]

@[simp] theorem releaseDatapath_lat :
    (releaseDatapath s).lat = s.lat := by
  rw [releaseDatapath]
@[simp] theorem releaseDatapath_status :
    (releaseDatapath s).status = s.status := by
  rw [releaseDatapath]
@[simp] theorem releaseDatapath_dp :
    (releaseDatapath s).dp = { cmd := Config.freeCmd s.draws, seq := Config.freeSeq s.draws, cnt := Config.freeCnt s.draws } := by
  rw [releaseDatapath]
@[simp] theorem releaseDatapath_rsp :
    (releaseDatapath s).rsp = s.rsp := by
  rw [releaseDatapath]
@[simp] theorem releaseDatapath_host :
    (releaseDatapath s).host = s.host := by
  rw [releaseDatapath]
@[simp] theorem releaseDatapath_draws :
    (releaseDatapath s).draws = s.draws + 1 := by
  rw [releaseDatapath]

@[simp] theorem resetEngine_lat (conv : Bool) :
    (resetEngine conv s).lat = [] := by
  rw [resetEngine, State.afterReset]
@[simp] theorem resetEngine_status (conv : Bool) :
    (resetEngine conv s).status = { conv := conv, done := false, err := false } := by
  rw [resetEngine, State.afterReset]
@[simp] theorem resetEngine_dp (conv : Bool) :
    (resetEngine conv s).dp = { cmd := 0, seq := 0, cnt := 0 } := by
  rw [resetEngine, State.afterReset]
@[simp] theorem resetEngine_rsp (conv : Bool) :
    (resetEngine conv s).rsp = none := by
  rw [resetEngine, State.afterReset]
@[simp] theorem resetEngine_host (conv : Bool) :
    (resetEngine conv s).host = s.host := by
  rw [resetEngine, State.afterReset]
@[simp] theorem resetEngine_draws (conv : Bool) :
    (resetEngine conv s).draws = s.draws := by
  rw [resetEngine, State.afterReset]

@[simp] theorem offerCommand_lat (w : Command) :
    (offerCommand w s).lat = s.lat := by
  rw [offerCommand]
@[simp] theorem offerCommand_status (w : Command) :
    (offerCommand w s).status = s.status := by
  rw [offerCommand]
@[simp] theorem offerCommand_dp (w : Command) :
    (offerCommand w s).dp = s.dp := by
  rw [offerCommand]
@[simp] theorem offerCommand_rsp (w : Command) :
    (offerCommand w s).rsp = none := by
  rw [offerCommand]
@[simp] theorem offerCommand_host (w : Command) :
    (offerCommand w s).host = .command w :: s.host := by
  rw [offerCommand]
@[simp] theorem offerCommand_draws (w : Command) :
    (offerCommand w s).draws = s.draws := by
  rw [offerCommand]

@[simp] theorem forgetDatapath_lat :
    (forgetDatapath s).lat = s.lat := by
  rw [forgetDatapath]
@[simp] theorem forgetDatapath_status :
    (forgetDatapath s).status = s.status := by
  rw [forgetDatapath]
@[simp] theorem forgetDatapath_dp :
    (forgetDatapath s).dp = { cmd := 0, seq := 0, cnt := 0 } := by
  rw [forgetDatapath]
@[simp] theorem forgetDatapath_rsp :
    (forgetDatapath s).rsp = s.rsp := by
  rw [forgetDatapath]
@[simp] theorem forgetDatapath_host :
    (forgetDatapath s).host = s.host := by
  rw [forgetDatapath]
@[simp] theorem forgetDatapath_draws :
    (forgetDatapath s).draws = s.draws := by
  rw [forgetDatapath]

@[simp] theorem afterReset_lat (conv : Bool) (host : List HostAction) (draws : Nat) :
    (State.afterReset conv host draws).lat = [] := by
  rw [State.afterReset]
@[simp] theorem afterReset_status (conv : Bool) (host : List HostAction) (draws : Nat) :
    (State.afterReset conv host draws).status = { conv := conv, done := false, err := false } := by
  rw [State.afterReset]
@[simp] theorem afterReset_rsp (conv : Bool) (host : List HostAction) (draws : Nat) :
    (State.afterReset conv host draws).rsp = none := by
  rw [State.afterReset]
@[simp] theorem afterReset_host (conv : Bool) (host : List HostAction) (draws : Nat) :
    (State.afterReset conv host draws).host = host := by
  rw [State.afterReset]
@[simp] theorem afterReset_draws (conv : Bool) (host : List HostAction) (draws : Nat) :
    (State.afterReset conv host draws).draws = draws := by
  rw [State.afterReset]

@[simp] theorem mapNext_next (f : State → State) : mapNext f (.next s) = .next (f s) := rfl

/-- `mapNext` answers a next state exactly where the outcome under it does. -/
theorem mapNext_eq_next {f : State → State} {o : Host.Outcome State Fault Refusal} {t : State} :
    mapNext f o = .next t ↔ ∃ u, o = .next u ∧ f u = t := by
  cases o <;> simp [mapNext]

end Sys2Proof.Machine
end

