-- ==== Sys2Proof/Laws/LatRam.lean ====
section
/-! SUPPORT. The laws of the LAT RAM: a read after a write, and the canonical form, which every operation on it keeps
(20_memory.md R36, R37). -/

namespace Sys2Proof.Machine

theorem latFind_insert_same (a : Nat) (v : Pattern) (l : LatRam) : latFind a (latInsert a v l) = some v := by
  induction l with
  | nil => simp [latInsert, latFind]
  | cons h rest ih =>
    obtain ⟨b, w⟩ := h
    unfold latInsert
    split
    · simp [latFind]
    · split
      · simp [latFind]
      · rename_i hne
        simp [latFind, hne, ih]

theorem latFind_insert_other {a b : Nat} (hab : a ≠ b) (v : Pattern) (l : LatRam) :
    latFind b (latInsert a v l) = latFind b l := by
  induction l with
  | nil => simp [latInsert, latFind, hab.symm]
  | cons h rest ih =>
    obtain ⟨c, w⟩ := h
    unfold latInsert
    split
    · simp [latFind, hab.symm]
    · split
      · rename_i hac
        simp [latFind, hab.symm, ← hac]
      · simp [latFind, ih]

theorem latRising_mono {low high : Nat} (h : low ≤ high) {l : LatRam} (hl : latRising high l = true) :
    latRising low l = true := by
  cases l with
  | nil => rfl
  | cons p rest =>
    simp only [latRising, Bool.and_eq_true, decide_eq_true_eq] at hl ⊢
    exact ⟨⟨by omega, hl.1.2⟩, hl.2⟩

theorem latRising_insert {low a : Nat} (hlow : low ≤ a) (ha : a < 8192) (v : Pattern) {l : LatRam}
    (hl : latRising low l = true) : latRising low (latInsert a v l) = true := by
  induction l generalizing low with
  | nil => simp [latInsert, latRising, hlow, ha]
  | cons p rest ih =>
    obtain ⟨b, w⟩ := p
    have hb := hl
    simp only [latRising, Bool.and_eq_true, decide_eq_true_eq] at hb
    obtain ⟨⟨hlb, hb8⟩, hrest⟩ := hb
    unfold latInsert
    split
    · simp [latRising, hlow, ha, hb8, hrest]
      omega
    · split
      · rename_i heq
        subst heq
        simp [latRising, hlow, ha, hrest]
      · simp [latRising, hlb, hb8, ih (by omega : b + 1 ≤ a) hrest]

/-- A write keeps the canonical form. -/
theorem latWf_latPut (a : LatAddress) (v : Pattern) {l : LatRam} (hl : latWf l = true) : latWf (latPut l a v) = true :=
  latRising_insert (Nat.zero_le _) (by have := a.isLt; omega) v hl

/-- A read of the address written gives the pattern written. -/
@[simp] theorem latGet_latPut_same (l : LatRam) (a : LatAddress) (v : Pattern) : latGet (latPut l a v) a = some v :=
  latFind_insert_same _ _ _

/-- A write changes no other entry. -/
theorem latGet_latPut_other {a b : LatAddress} (h : a ≠ b) (l : LatRam) (v : Pattern) :
    latGet (latPut l a v) b = latGet l b :=
  latFind_insert_other (fun e => h (BitVec.eq_of_toNat_eq e)) _ _

theorem latGet_latPut (l : LatRam) (a b : LatAddress) (v : Pattern) :
    latGet (latPut l a v) b = if b = a then some v else latGet l b := by
  split
  · rename_i h; rw [h, latGet_latPut_same]
  · rename_i h; exact latGet_latPut_other (Ne.symm h) l v

@[simp] theorem latGet_nil (a : LatAddress) : latGet [] a = none := rfl

theorem latRising_find {low : Nat} {l : LatRam} (hl : latRising low l = true) {a : Nat} {v : Pattern}
    (h : latFind a l = some v) : low ≤ a := by
  induction l generalizing low with
  | nil => simp [latFind] at h
  | cons p rest ih =>
    obtain ⟨b, w⟩ := p
    simp only [latRising, Bool.and_eq_true, decide_eq_true_eq] at hl
    simp only [latFind] at h
    split at h
    · omega
    · have := ih hl.2 h
      omega

theorem latRising_ext {low : Nat} {l m : LatRam} (hl : latRising low l = true) (hm : latRising low m = true)
    (h : ∀ a, a < 8192 → latFind a l = latFind a m) : l = m := by
  induction l generalizing low m with
  | nil =>
    cases m with
    | nil => rfl
    | cons q rest =>
      simp only [latRising, Bool.and_eq_true, decide_eq_true_eq] at hm
      have := h q.1 hm.1.2
      simp [latFind] at this
  | cons p rest ih =>
    obtain ⟨b, w⟩ := p
    simp only [latRising, Bool.and_eq_true, decide_eq_true_eq] at hl
    cases m with
    | nil =>
      have := h b hl.1.2
      simp [latFind] at this
    | cons q more =>
      obtain ⟨c, x⟩ := q
      simp only [latRising, Bool.and_eq_true, decide_eq_true_eq] at hm
      have h1 := h b hl.1.2
      have h2 := h c hm.1.2
      have hbc : b = c := by
        by_contra hne
        simp only [latFind, if_true, if_neg hne] at h1
        simp only [latFind, if_true, if_neg (Ne.symm hne)] at h2
        have l1 := latRising_find hm.2 h1.symm
        have l2 := latRising_find hl.2 h2
        omega
      subst hbc
      simp only [latFind, if_true, Option.some.injEq] at h1
      subst h1
      congr 1
      refine ih hl.2 hm.2 fun a ha => ?_
      by_cases hab : a = b
      · subst hab
        cases hf : latFind a rest with
        | some v => exact absurd (latRising_find hl.2 hf) (by omega)
        | none =>
          cases hg : latFind a more with
          | some v => exact absurd (latRising_find hm.2 hg) (by omega)
          | none => rfl
      · have := h a ha
        simpa [latFind, hab] using this

/-- Two canonical LATs that read the same at every address are the same list. -/
theorem lat_ext {l m : LatRam} (hl : latWf l = true) (hm : latWf m = true) (h : ∀ a, latGet l a = latGet m a) : l = m := by
  refine latRising_ext hl hm fun a ha => ?_
  have := h (BitVec.ofNat 13 a)
  simpa [latGet, Nat.mod_eq_of_lt ha] using this

/-- A write of the pattern that is there changes nothing. -/
theorem latPut_same {l : LatRam} (hl : latWf l = true) {a : LatAddress} {v : Pattern} (h : latGet l a = some v) :
    latPut l a v = l := by
  refine lat_ext (latWf_latPut a v hl) hl fun b => ?_
  rw [latGet_latPut]
  split
  · rename_i hb; rw [hb, h]
  · rfl

/-- The LAT of every reset state is canonical. -/
@[simp] theorem latWf_nil : latWf [] = true := rfl

theorem latWf_latWrite (a : LatAddress) (v : Pattern) (s : State) (h : latWf s.lat = true) :
    latWf (latWrite a v s).lat = true :=
  latWf_latPut a v h

end Sys2Proof.Machine
end

