-- ==== Sys2Proof/Laws/Cell.lean ====
section
/-! SUPPORT. What one cell does: CNT after the 64 elementary operations is the count of 41_lat_cell.md R73, the normaliser
encodes the bias, and a cell's run changes its own LAT entry and the datapath registers only. -/

namespace Sys2Proof.Machine

variable (table : SboxTable) (conv : Bool) (box : SboxIndex) (alpha : Input) (beta : Output)

/-- One elementary operation adds the match for its input to CNT. -/
theorem elementaryOp_cnt (d : Datapath) (x : Input) :
    (elementaryOp table conv box alpha beta d x).cnt =
      d.cnt + BitVec.ofNat 7 (matchBit table conv box alpha beta x).toNat := by
  simp only [elementaryOp, addMatch, matchBit, seqBox_seqPack, seqAlpha_seqPack, seqBeta_seqPack, seqX_seqPack]
  split <;> rename_i h <;> simp [h]

@[simp] theorem elementaryOp_cmd (d : Datapath) (x : Input) :
    (elementaryOp table conv box alpha beta d x).cmd = d.cmd := by
  simp only [elementaryOp, addMatch]
  split <;> rfl

@[simp] theorem elementaryOp_seq (d : Datapath) (x : Input) :
    (elementaryOp table conv box alpha beta d x).seq = seqPack box alpha beta x := by
  simp only [elementaryOp, addMatch]
  split <;> rfl

/-- CNT after the first `k` inputs has grown by the number of matches among them. -/
theorem foldl_elementaryOp_cnt (d : Datapath) (k : Nat) :
    (((List.range k).map (BitVec.ofNat 6)).foldl (elementaryOp table conv box alpha beta) d).cnt =
      d.cnt + BitVec.ofNat 7 (countBelow table conv box alpha beta k) := by
  induction k with
  | zero => simp [countBelow]
  | succ k ih =>
    rw [List.range_succ, List.map_append, List.foldl_append]
    simp only [List.map_cons, List.map_nil, List.foldl_cons, List.foldl_nil, elementaryOp_cnt, ih, countBelow]
    rw [BitVec.add_assoc, BitVec.ofNat_add]

theorem countBelow_le (k : Nat) : countBelow table conv box alpha beta k ≤ k := by
  induction k with
  | zero => simp [countBelow]
  | succ k ih =>
    have := Bool.toNat_le (matchBit table conv box alpha beta (BitVec.ofNat 6 k))
    simp only [countBelow]
    omega

/-- The match counter lies in 0 to 64 (10_state.md R18). -/
theorem count_le : count table conv box alpha beta ≤ 64 := countBelow_le ..

/-- The normaliser on a 7-bit count is `enc7` of the count minus 32 (41_lat_cell.md R76). -/
theorem normalise_ofNat (n : Nat) : normalise (BitVec.ofNat 7 n) = enc7 ((n : Int) - 32) := by
  have h : (enc7 ((n : Int) - 32) : Pattern) = BitVec.ofInt 7 (n : Int) + BitVec.ofInt 7 96 := by
    rw [← BitVec.ofInt_add]
    apply BitVec.eq_of_toInt_eq
    simp only [enc7, BitVec.toInt_ofInt]
    rw [show (n : Int) + 96 = (n : Int) - 32 + (2 ^ 7 : Nat) by push_cast; ring]
    exact (Int.add_bmod_right _ _).symm
  rw [h, normalise, BitVec.ofInt_natCast]
  rfl

/-- CNT after the accumulation of a cell (41_lat_cell.md R73). -/
@[simp] theorem accumulate_cnt (d : Datapath) :
    (accumulate table conv box alpha beta d).cnt = BitVec.ofNat 7 (count table conv box alpha beta) := by
  simp [accumulate, allInputs, foldl_elementaryOp_cnt, count]

/-- A cell's run writes `enc7(Bias)` to the cell's own LAT entry (41_lat_cell.md R74, R77). -/
@[simp] theorem cellWork_lat (p : LatRam × Datapath) :
    (cellWork table conv box alpha beta p).1 =
      latPut p.1 (latAddress box alpha beta) (enc7 (bias table conv box alpha beta)) := by
  simp [cellWork, normalise_ofNat, bias]

@[simp] theorem cellWork_cnt (p : LatRam × Datapath) :
    (cellWork table conv box alpha beta p).2.cnt = BitVec.ofNat 7 (count table conv box alpha beta) := by
  simp [cellWork]

@[simp] theorem withWork_lat (s : State) (p : LatRam × Datapath) : (withWork s p).lat = p.1 := by rw [withWork]
@[simp] theorem withWork_status (s : State) (p : LatRam × Datapath) : (withWork s p).status = s.status := by rw [withWork]
@[simp] theorem withWork_dp (s : State) (p : LatRam × Datapath) : (withWork s p).dp = p.2 := by rw [withWork]
@[simp] theorem withWork_rsp (s : State) (p : LatRam × Datapath) : (withWork s p).rsp = s.rsp := by rw [withWork]
@[simp] theorem withWork_host (s : State) (p : LatRam × Datapath) : (withWork s p).host = s.host := by rw [withWork]
@[simp] theorem withWork_draws (s : State) (p : LatRam × Datapath) : (withWork s p).draws = s.draws := by rw [withWork]

@[simp] theorem runCell_lat (s : State) :
    (runCell table box alpha beta s).lat =
      latPut s.lat (latAddress box alpha beta) (enc7 (bias table s.status.conv box alpha beta)) := by
  simp [runCell]

@[simp] theorem runCell_cnt (s : State) :
    (runCell table box alpha beta s).dp.cnt = BitVec.ofNat 7 (count table s.status.conv box alpha beta) := by
  simp [runCell]

@[simp] theorem runCell_status (s : State) : (runCell table box alpha beta s).status = s.status := by
  rw [runCell, withWork_status]
@[simp] theorem runCell_rsp (s : State) : (runCell table box alpha beta s).rsp = s.rsp := by
  rw [runCell, withWork_rsp]
@[simp] theorem runCell_host (s : State) : (runCell table box alpha beta s).host = s.host := by
  rw [runCell, withWork_host]
@[simp] theorem runCell_draws (s : State) : (runCell table box alpha beta s).draws = s.draws := by
  rw [runCell, withWork_draws]

end Sys2Proof.Machine
end

