-- ==== Sys2Proof/Laws/Build.lean ====
section
/-! SUPPORT. What running a list of cells does: the listed cells' LAT entries hold their biases, every other entry is as before
(42_lat_build.md R83). -/

namespace Sys2Proof.Machine

variable (table : SboxTable) (cells : List (SboxIndex × Input × Output)) (s : State)

/-- Every cell is in the loop nest (20_memory.md R35; 42_lat_build.md R83). -/
theorem mem_allCells (c : SboxIndex × Input × Output) : c ∈ allCells := by
  obtain ⟨box, alpha, beta⟩ := c
  simp only [allCells, List.mem_flatMap, List.mem_map, List.mem_range, Prod.mk.injEq]
  refine ⟨box.toNat, box.isLt, alpha.toNat, alpha.isLt, beta.toNat, beta.isLt, ?_, ?_, ?_⟩ <;> simp

@[simp] theorem runCells_nil : runCells table [] s = s := rfl

@[simp] theorem runCells_cons (c : SboxIndex × Input × Output) :
    runCells table (c :: cells) s = runCells table cells (runCell table c.1 c.2.1 c.2.2 s) := rfl

@[simp] theorem runCells_status : (runCells table cells s).status = s.status := by
  rw [runCells, withWork_status]
@[simp] theorem runCells_rsp : (runCells table cells s).rsp = s.rsp := by
  rw [runCells, withWork_rsp]
@[simp] theorem runCells_host : (runCells table cells s).host = s.host := by
  rw [runCells, withWork_host]
@[simp] theorem runCells_draws : (runCells table cells s).draws = s.draws := by
  rw [runCells, withWork_draws]

/-- Running cells keeps the canonical form. -/
theorem latWf_runCells (h : latWf s.lat = true) : latWf (runCells table cells s).lat = true := by
  induction cells generalizing s with
  | nil => exact h
  | cons c rest ih =>
    rw [runCells_cons]
    refine ih _ ?_
    rw [runCell_lat]
    exact latWf_latPut _ _ h

/-- After the listed cells have run, a listed cell's entry holds its bias and any other entry is as before. -/
theorem latGet_runCells (box : SboxIndex) (alpha : Input) (beta : Output) :
    latGet (runCells table cells s).lat (latAddress box alpha beta) =
      if (box, alpha, beta) ∈ cells then some (enc7 (bias table s.status.conv box alpha beta))
      else latGet s.lat (latAddress box alpha beta) := by
  induction cells generalizing s with
  | nil => simp
  | cons c rest ih =>
    obtain ⟨box', alpha', beta'⟩ := c
    simp only [runCells_cons, ih, runCell_status, runCell_lat, latGet_latPut, latAddress_inj, List.mem_cons,
      Prod.mk.injEq]
    by_cases hm : (box, alpha, beta) ∈ rest
    · simp [hm]
    · by_cases he : box = box' ∧ alpha = alpha' ∧ beta = beta'
      · obtain ⟨rfl, rfl, rfl⟩ := he
        simp [hm]
      · simp [hm, he]

@[simp] theorem buildTable_status : (buildTable table s).status = s.status := by
  rw [buildTable, runCells_status]
@[simp] theorem buildTable_rsp : (buildTable table s).rsp = s.rsp := by
  rw [buildTable, runCells_rsp]
@[simp] theorem buildTable_host : (buildTable table s).host = s.host := by
  rw [buildTable, runCells_host]
@[simp] theorem buildTable_draws : (buildTable table s).draws = s.draws := by
  rw [buildTable, runCells_draws]

/-- After the loop nest every entry holds its bias (42_lat_build.md R83). -/
theorem latGet_buildTable (box : SboxIndex) (alpha : Input) (beta : Output) :
    latGet (buildTable table s).lat (latAddress box alpha beta) =
      some (enc7 (bias table s.status.conv box alpha beta)) := by
  rw [buildTable, latGet_runCells, if_pos (mem_allCells _)]

/-- The loop nest keeps the canonical form. -/
theorem latWf_buildTable (h : latWf s.lat = true) : latWf (buildTable table s).lat = true :=
  latWf_runCells table allCells s h

/-- The same at an address. -/
theorem latGet_buildTable_address (a : LatAddress) :
    latGet (buildTable table s).lat a =
      some (enc7 (bias table s.status.conv (latBox a) (latAlpha a) (latBeta a))) := by
  rw [← latGet_buildTable, latAddress_fields]

/-- A range of `m * n` numbers as `m` runs of `n`. -/
theorem range_mul (m n : Nat) :
    List.range (m * n) = (List.range m).flatMap fun i => (List.range n).map fun k => n * i + k := by
  induction m with
  | zero => simp
  | succ m ih =>
    rw [Nat.succ_mul, List.range_add, List.range_succ, List.flatMap_append, ih, Nat.mul_comm m n]
    simp

/-- The loop nest visits the cells in ascending LAT address order (20_memory.md R35; 42_lat_build.md R82). -/
theorem allCells_eq :
    allCells = (List.range 8192).map fun k =>
      (latBox (BitVec.ofNat 13 k), latAlpha (BitVec.ofNat 13 k), latBeta (BitVec.ofNat 13 k)) := by
  rw [show 8192 = 8 * 1024 from rfl, range_mul, allCells, List.map_flatMap]
  refine List.flatMap_congr fun i hi => ?_
  rw [show 1024 = 64 * 16 from rfl, range_mul, List.map_map, List.map_flatMap]
  refine List.flatMap_congr fun j hj => ?_
  rw [List.map_map]
  refine List.map_congr_left fun k hk => ?_
  rw [List.mem_range] at hi hj hk
  simp only [Function.comp, Prod.mk.injEq]
  refine ⟨?_, ?_, ?_⟩ <;> apply BitVec.eq_of_toNat_eq <;>
    simp only [latBox, latAlpha, latBeta, BitVec.extractLsb'_toNat, BitVec.toNat_ofNat, Nat.shiftRight_eq_div_pow] <;>
    omega

end Sys2Proof.Machine
end

