-- ==== Sys2Proof/Laws/PerInstr.lean ====
section
/-! SUPPORT. Statements about every command, one lemma per constructor: family OpcodeRows, that a command is well formed and that
of the rows of the opcode map just its own selects its word (30_encoding.md R48, R49). -/

namespace Sys2Proof.Laws

theorem wellFormed_sbox (box : SboxIndex) (x : Input) : (Instr.sbox box x).wellFormed = true := by
  have := box.isLt
  have := x.isLt
  simp only [Instr.wellFormed, Instr.toAsm, AsmLine.wellFormed, Bool.and_eq_true, decide_eq_true_eq]
  omega

theorem wellFormed_cell (box : SboxIndex) (alpha : Input) (beta : Output) :
    (Instr.cell box alpha beta).wellFormed = true := by
  have := box.isLt
  have := alpha.isLt
  have := beta.isLt
  simp only [Instr.wellFormed, Instr.toAsm, AsmLine.wellFormed, Bool.and_eq_true, decide_eq_true_eq]
  omega

theorem wellFormed_rdlat (box : SboxIndex) (alpha : Input) (beta : Output) :
    (Instr.rdlat box alpha beta).wellFormed = true := by
  have := box.isLt
  have := alpha.isLt
  have := beta.isLt
  simp only [Instr.wellFormed, Instr.toAsm, AsmLine.wellFormed, Bool.and_eq_true, decide_eq_true_eq]
  omega

/-- The widths of the fields make every command well formed (30_encoding.md R48). -/
theorem wellFormed_of_width (i : Instr) : i.wellFormed = true := by
  cases i with
  | sbox box x => exact wellFormed_sbox box x
  | cell box alpha beta => exact wellFormed_cell box alpha beta
  | rdlat box alpha beta => exact wellFormed_rdlat box alpha beta
  | build => rfl
  | stat => rfl

namespace OpcodeRows

/-- The command is well formed, and the rows of the opcode map that select its word are just the row with its mnemonic. -/
def Statement (i : Instr) : Prop :=
  i.wellFormed = true ∧ (opcodeTable.filter (·.selects (encode i))).map (·.mnemonic) = [i.mnemonic]

/-- A row selects a packed word where each masked field is the row's. -/
theorem selects_packWord (mn : String) (bits mask : Command) (op : BitVec 3) (box : SboxIndex) (a : Input) (b : Output) :
    OpcodeRow.selects ⟨mn, bits, mask⟩ (packWord op box a b) =
      (op &&& opField mask == opField bits && (box &&& boxField mask == boxField bits &&
        (a &&& inputField mask == inputField bits && b &&& outputField mask == outputField bits))) := by
  rw [Bool.eq_iff_iff]
  simp [OpcodeRow.selects, word_ext (w := _ &&& mask)]

theorem sbox (box : SboxIndex) (x : Input) : Statement (.sbox box x) := by
  refine ⟨wellFormed_sbox box x, ?_⟩
  simp only [opcodeTable, List.filter_cons, encode, selects_packWord]
  simp [opField, boxField, inputField, outputField, Instr.mnemonic]

theorem cell (box : SboxIndex) (alpha : Input) (beta : Output) : Statement (.cell box alpha beta) := by
  refine ⟨wellFormed_cell box alpha beta, ?_⟩
  simp only [opcodeTable, List.filter_cons, encode, selects_packWord]
  simp [opField, boxField, inputField, outputField, Instr.mnemonic]

theorem rdlat (box : SboxIndex) (alpha : Input) (beta : Output) : Statement (.rdlat box alpha beta) := by
  refine ⟨wellFormed_rdlat box alpha beta, ?_⟩
  simp only [opcodeTable, List.filter_cons, encode, selects_packWord]
  simp [opField, boxField, inputField, outputField, Instr.mnemonic]

theorem build : Statement .build := ⟨rfl, by decide⟩

theorem stat : Statement .stat := ⟨rfl, by decide⟩

end OpcodeRows

end Sys2Proof.Laws
end

