-- ==== Sys2Proof/Laws/Step.lean ====
section
/-! SUPPORT. What a step can do, said once: the inversion of `step`, and the command step on a legal and on an illegal word. -/

namespace Sys2Proof.Machine

/-- The S-box output is the table's entry at the row and column of the input (40_sbox_lookup.md R64). -/
@[simp] theorem sboxOut_eq (table : SboxTable) (conv : Bool) (box : SboxIndex) (x : Input) :
    sboxOut table conv box x = table box (rowCol conv x).1 (rowCol conv x).2 := by
  simp [sboxOut, romRead]

theorem runLatched_legal {s : State} {i : Instr} (h : decode s.dp.cmd = .legal i) : runLatched s = exec i s := by
  simp [runLatched, h]

theorem runLatched_illegal {s : State} {c : Cause} (h : decode s.dp.cmd = .illegal c) :
    runLatched s = .next (raiseIllegal c s) := by
  simp [runLatched, h]

theorem commandStep_legal {w : Command} {i : Instr} (h : decode w = .legal i) (s : State) :
    commandStep w s = mapNext releaseDatapath (exec i (acceptCommand w s)) := by
  rw [commandStep, runLatched_legal (s := acceptCommand w s) h]

theorem commandStep_illegal {w : Command} {c : Cause} (h : decode w = .illegal c) (s : State) :
    commandStep w s = .next (releaseDatapath (raiseIllegal c (acceptCommand w s))) := by
  rw [commandStep, runLatched_illegal (s := acceptCommand w s) h, mapNext_next]

@[simp] theorem raiseIllegal_lat (c : Cause) (s : State) : (raiseIllegal c s).lat = s.lat := by
  simp [raiseIllegal]
@[simp] theorem raiseIllegal_status (c : Cause) (s : State) :
    (raiseIllegal c s).status = { s.status with err := true } := by
  simp [raiseIllegal]
@[simp] theorem raiseIllegal_dp (c : Cause) (s : State) : (raiseIllegal c s).dp = s.dp := by
  simp [raiseIllegal]
@[simp] theorem raiseIllegal_rsp (c : Cause) (s : State) :
    (raiseIllegal c s).rsp = some (responseWord true (causeCode c)) := by
  simp [raiseIllegal]
@[simp] theorem raiseIllegal_host (c : Cause) (s : State) : (raiseIllegal c s).host = s.host := by
  simp [raiseIllegal]
@[simp] theorem raiseIllegal_draws (c : Cause) (s : State) : (raiseIllegal c s).draws = s.draws := by
  simp [raiseIllegal]

/-- What a step that answers a next state has done. -/
theorem step_cases {s t : State} (h : step s = .next t) :
    (s.host = [] ∧ t = s) ∨
    (∃ rest, s.host = .takeResponse :: rest ∧ t = responseTaken (hostMoves rest s)) ∨
    (∃ conv rest, s.host = .reset conv :: rest ∧ t = resetEngine conv (hostMoves rest s)) ∨
    (∃ w rest, s.host = .command w :: rest ∧ s.rsp ≠ none ∧ t = responseTaken s) ∨
    (∃ w rest, s.host = .command w :: rest ∧ s.rsp = none ∧ commandStep w (hostMoves rest s) = .next t) := by
  unfold step transaction at h
  split at h <;> rename_i hh
  · cases h; exact .inl ⟨hh, rfl⟩
  · cases h; exact .inr (.inl ⟨_, hh, rfl⟩)
  · cases h; exact .inr (.inr (.inl ⟨_, _, hh, rfl⟩))
  · split at h <;> rename_i hr
    · exact .inr (.inr (.inr (.inr ⟨_, _, hh, by simpa [cmdReady] using hr, h⟩)))
    · cases h
      refine .inr (.inr (.inr (.inl ⟨_, _, hh, ?_, rfl⟩)))
      intro e
      simp [cmdReady, e] at hr

/-- What a command step that answers a next state has done: the legal command's effect, or the error step. -/
theorem commandStep_cases {w : Command} {s t : State} (h : commandStep w s = .next t) :
    (∃ i u, decode w = .legal i ∧ exec i (acceptCommand w s) = .next u ∧ t = releaseDatapath u) ∨
    (∃ c, decode w = .illegal c ∧ t = releaseDatapath (raiseIllegal c (acceptCommand w s))) := by
  cases hd : decode w with
  | legal i =>
    rw [commandStep_legal hd, mapNext_eq_next] at h
    obtain ⟨u, hu, rfl⟩ := h
    exact .inl ⟨i, u, rfl, hu, rfl⟩
  | illegal c =>
    rw [commandStep_illegal hd] at h
    cases h
    exact .inr ⟨c, rfl, rfl⟩

/-! The five commands as equations, CELL with the bias in place of CNT. Unfolding `exec` by `rfl` or `decide` instead makes Lean
run the 64 operations of a cell or the 8192 cells of BUILD. -/

theorem exec_sbox (box : SboxIndex) (x : Input) (s : State) :
    exec (.sbox box x) s =
      .next (respond false (zextTo 7 (sboxOut Config.sboxTable s.status.conv box x)) s) := by
  simp only [exec, execSbox]

theorem exec_cell (box : SboxIndex) (alpha : Input) (beta : Output) (s : State) :
    exec (.cell box alpha beta) s =
      .next (respond false (enc7 (bias Config.sboxTable s.status.conv box alpha beta))
        (runCell Config.sboxTable box alpha beta s)) := by
  simp only [exec, execCell, runCell_cnt, normalise_ofNat, bias]

theorem exec_rdlat (box : SboxIndex) (alpha : Input) (beta : Output) (s : State) :
    exec (.rdlat box alpha beta) s =
      .next (respond false (latReadValue (latAddress box alpha beta) s)
        (latReadState (latAddress box alpha beta) s)) := by
  simp only [exec, execRdlat]

theorem exec_build (s : State) :
    exec .build s = .next (respond false 0 (setDone (buildTable Config.sboxTable s))) := by
  simp only [exec, execBuild]

theorem exec_stat (s : State) : exec .stat s = .next (respond false (statusWord s.status) s) := by
  simp only [exec, execStat]

/-- What a command that answers a next state has done, one case for each command. -/
theorem exec_cases {i : Instr} {s t : State} (h : exec i s = .next t) :
    (∃ box x, i = .sbox box x ∧ t = respond false (zextTo 7 (sboxOut Config.sboxTable s.status.conv box x)) s) ∨
    (∃ box alpha beta, i = .cell box alpha beta ∧
      t = respond false (enc7 (bias Config.sboxTable s.status.conv box alpha beta))
        (runCell Config.sboxTable box alpha beta s)) ∨
    (∃ box alpha beta, i = .rdlat box alpha beta ∧
      t = respond false (latReadValue (latAddress box alpha beta) s) (latReadState (latAddress box alpha beta) s)) ∨
    (i = .build ∧ t = respond false 0 (setDone (buildTable Config.sboxTable s))) ∨
    (i = .stat ∧ t = respond false (statusWord s.status) s) := by
  cases i with
  | sbox box x =>
    simp only [exec_sbox, Host.Outcome.next.injEq] at h
    exact .inl ⟨box, x, rfl, h.symm⟩
  | cell box alpha beta =>
    simp only [exec_cell, Host.Outcome.next.injEq] at h
    exact .inr (.inl ⟨box, alpha, beta, rfl, h.symm⟩)
  | rdlat box alpha beta =>
    simp only [exec_rdlat, Host.Outcome.next.injEq] at h
    exact .inr (.inr (.inl ⟨box, alpha, beta, rfl, h.symm⟩))
  | build =>
    simp only [exec_build, Host.Outcome.next.injEq] at h
    exact .inr (.inr (.inr (.inl ⟨rfl, h.symm⟩)))
  | stat =>
    simp only [exec_stat, Host.Outcome.next.injEq] at h
    exact .inr (.inr (.inr (.inr ⟨rfl, h.symm⟩)))

end Sys2Proof.Machine
end

