-- ==== Sys2Proof/Tests/Slice0.lean ====
section
/-! SUPPORT. Tests with results from the spec's own tables, the smoke tests of WellFormed, and a witness for the hypotheses of
every statement that has some. -/

namespace Sys2Proof.Tests

open Sys2Proof Sys2Proof.Machine

/-! ## WellFormed refuses an operand out of range (30_encoding.md R56) -/

theorem test_sbox_box_out_of_range : (AsmLine.sbox 8 0).wellFormed = false := by decide
theorem test_sbox_input_out_of_range : (AsmLine.sbox 0 64).wellFormed = false := by decide
theorem test_cell_box_out_of_range : (AsmLine.cell 8 0 0).wellFormed = false := by decide
theorem test_cell_alpha_out_of_range : (AsmLine.cell 0 64 0).wellFormed = false := by decide
theorem test_cell_beta_out_of_range : (AsmLine.cell 0 0 16).wellFormed = false := by decide
theorem test_rdlat_box_out_of_range : (AsmLine.rdlat 8 0 0).wellFormed = false := by decide
theorem test_rdlat_alpha_out_of_range : (AsmLine.rdlat 0 64 0).wellFormed = false := by decide
theorem test_rdlat_beta_out_of_range : (AsmLine.rdlat 0 0 16).wellFormed = false := by decide
theorem test_word_out_of_range : (AsmLine.word 65536).wellFormed = false := by decide
theorem test_largest_operands_in_range :
    (AsmLine.cell 7 63 15).wellFormed = true ∧ (AsmLine.sbox 7 63).wellFormed = true ∧
      (AsmLine.word 65535).wellFormed = true := by decide

/-! ## Decoding of words written out from the encoding, `op` `s` `a` `b` (30_encoding.md R47, R49, R58) -/

theorem test_decode_sbox : decode 0b001_111_100001_0000 = .legal (.sbox 7 33) := by decide
theorem test_decode_cell : decode 0b010_100_010000_1111 = .legal (.cell 4 16 15) := by decide
theorem test_decode_rdlat : decode 0b011_000_100000_0000 = .legal (.rdlat 0 32 0) := by decide
theorem test_decode_build : decode 0b100_000_000000_0000 = .legal .build := by decide
theorem test_decode_stat : decode 0b101_000_000000_0000 = .legal .stat := by decide

/-- The illegal rows of 95_test_vectors.md section 2. -/
theorem test_decode_illegal :
    decode 0x0000 = .illegal .reservedOp ∧ decode 0x1FFF = .illegal .reservedOp ∧
    decode 0x2001 = .illegal .fieldNotZero ∧ decode 0x3FFF = .illegal .fieldNotZero ∧
    decode 0x8001 = .illegal .fieldNotZero ∧ decode 0x9FFF = .illegal .fieldNotZero ∧
    decode 0xA010 = .illegal .fieldNotZero ∧ decode 0xBFFF = .illegal .fieldNotZero ∧
    decode 0xC000 = .illegal .reservedOp ∧ decode 0xDFFF = .illegal .reservedOp ∧
    decode 0xE000 = .illegal .reservedOp ∧ decode 0xFFFF = .illegal .reservedOp := by decide

theorem test_table_word : decodeTableWord 16 0x510F = some (.cell 4 16 15) ∧ decodeTableWord 16 0x2001 = none := by decide

/-! ## Lookup, arithmetic and cells on the tables of 95_test_vectors.md -/

/-- 40_sbox_lookup.md R64, rows x = 30 and x = 33 of the table. -/
theorem test_row_col :
    rowCol false 30 = (0, 15) ∧ rowCol true 30 = (1, 14) ∧ rowCol false 33 = (3, 0) ∧ rowCol true 33 = (2, 1) := by decide

/-- 95_test_vectors.md section 5, `SBOX 7, 33` and `SBOX 4, 62`. -/
theorem test_sbox_des :
    sboxOut desTable false 7 33 = 2 ∧ sboxOut desTable true 7 33 = 11 ∧ sboxOut desTable false 4 62 = 14 ∧
      sboxOut desTable true 4 62 = 5 := by decide

/-- 95_test_vectors.md section 3. -/
theorem test_enc7 : enc7 (-32) = 0x60 ∧ enc7 (-1) = 0x7F ∧ enc7 32 = 0x20 ∧ dec7 0x6C = -20 ∧ dec7 0x40 = -64 := by decide

/-- 95_test_vectors.md section 4. -/
theorem test_inner_products :
    ipIn 63 62 = true ∧ ipIn 21 7 = false ∧ ipIn 42 7 = true ∧ ipOut 15 14 = true ∧ ipOut 10 6 = true ∧
      ipOut 5 5 = false := by decide

/-- 95_test_vectors.md section 6.3, `CELL 4, 16, 15` and `CELL 6, 59, 4`. -/
theorem test_cell_des :
    count desTable false 4 16 15 = 12 ∧ count desTable true 4 8 15 = 12 ∧ count desTable false 6 59 4 = 14 ∧
      count desTable true 6 59 4 = 36 := by decide +kernel

/-- 95_test_vectors.md section 6.2, table K5, `CELL 0, 0, 1` and `CELL 0, 0, 2`. -/
theorem test_cell_extremes :
    count (fun _ _ _ => 5) false 0 0 1 = 0 ∧ count (fun _ _ _ => 5) true 0 0 2 = 64 := by decide +kernel

/-! ## One step on small states -/

/-- A state with the given flags, host moves and LAT, and no response waiting. -/
def small (conv done err : Bool) (host : List HostAction) (lat : LatRam) : State where
  lat := lat
  status := { conv := conv, done := done, err := err }
  dp := { cmd := 0, seq := 0, cnt := 0 }
  rsp := none
  host := host
  draws := 0

/-- The response a step leaves, if it answers a next state. -/
def responseOf : Host.Outcome State Fault Refusal → Option Response
  | .next t => t.rsp
  | .fault _ => none
  | .refused _ => none

/-- The flags a step leaves, as the status word. -/
def flagsOf : Host.Outcome State Fault Refusal → Option Pattern
  | .next t => some (statusWord t.status)
  | .fault _ => none
  | .refused _ => none

/-- 95_test_vectors.md section 8: (1, 1, 1) answers 0x07, (0, 1, 0) answers 0x02. -/
theorem test_stat :
    responseOf (exec .stat (small true true true [] [])) = some 0x07 ∧
      responseOf (exec .stat (small false true false [] [])) = some 0x02 := by decide

/-- 95_test_vectors.md section 8: `.word 0xE123` from (0, 1, 0). -/
theorem test_reserved_op_step :
    responseOf (step (small false true false [.command 0xE123] [])) = some 0x81 ∧
      flagsOf (step (small false true false [.command 0xE123] [])) = some 0b110 := by decide

/-- 95_test_vectors.md section 8: `.word 0x8001` from (0, 0, 0): no table is built and DONE stays 0. -/
theorem test_build_with_payload_step :
    responseOf (step (small false false false [.command 0x8001] [])) = some 0x82 ∧
      flagsOf (step (small false false false [.command 0x8001] [])) = some 0b100 := by decide

/-- 43_readout_status.md R89: RDLAT of the last address. -/
theorem test_rdlat_last : responseOf (exec (.rdlat 7 63 15) (small false false false [] [(8191, 0x6C)])) = some 0x6C := by
  decide

/-- The LAT stays sorted and holds the last pattern written (20_memory.md R37; log entry 6). -/
theorem test_lat_put : latPut (latPut (latPut [] 512 0x00) 0 0x20) 512 0x7E = [(0, 0x20), (512, 0x7E)] := by decide

/-- 70_reset_and_hazards.md R106: a reset with the strap at 1 drops the waiting response, the flags and the table. -/
theorem test_reset_step :
    responseOf (step { small false true true [.reset true] [(0, 0x20)] with rsp := some 0x20 }) = none ∧
      flagsOf (step { small false true true [.reset true] [(0, 0x20)] with rsp := some 0x20 }) = some 0b001 := by decide

/-- A command comes to run as the first step from reset: SBOX 0, 0 responds with `err` = 0. -/
theorem test_first_step :
    ∃ t, step (State.reset.withFetchWord 16 0x2000) = .next t ∧ t.rsp.map responseErr = some false := by
  have h : ∀ p : Pattern, responseErr (responseWord false p) = false := by decide
  exact ⟨_, rfl, congrArg some (h _)⟩

/-! ## Witnesses: a concrete state and operands that meet the hypotheses of each statement -/

theorem witness_DecodeOfEncode : (Instr.cell 7 63 15).wellFormed = true ∧ (Instr.sbox 7 63).wellFormed = true := by decide
theorem witness_EncodeOfDecode : decode 0x23F0 = .legal (.sbox 0 63) ∧ decode 0xA000 = .legal .stat := by decide
theorem witness_OpcodeMap :
    ((0x23F0 : Command) &&& 0xE00F = 0x2000) ∧ ((0x5FFF : Command) &&& 0xE000 = 0x4000) ∧
    ((0x7FFF : Command) &&& 0xE000 = 0x6000) ∧ ((0x8000 : Command) &&& 0xFFFF = 0x8000) ∧
    ((0xA000 : Command) &&& 0xFFFF = 0xA000) ∧ (∀ r ∈ opcodeTable, r.selects 0x2001 = false) ∧
    opField 0x0000 = 0b000 ∧ opField 0xC000 = 0b110 ∧ opField 0xFFFF = 0b111 ∧
    (∃ r ∈ opcodeTable, r.selects 0x4000 = true) := by decide
theorem witness_AssemblerGivesTheEncoding : (AsmLine.rdlat 0 0 16).wellFormed = false := by decide
theorem witness_SboxCommandRuns :
    opField 0x2010 = 0b001 ∧ outputField 0x2010 = 0 ∧ opField 0x200F = 0b001 ∧ outputField 0x200F ≠ 0 := by decide
theorem witness_CountIsOrderIndependent : allInputs.reverse.Perm allInputs := allInputs.reverse_perm
theorem witness_MatchCounterNeverOverflows : (0 : Nat) ≤ 64 ∧ 64 ≤ 64 := by decide
theorem witness_CountIsPopcountOfMatchVector :
    ∀ x : Input, (BitVec.allOnes 64).getLsbD x.toNat = matchBit (fun _ _ _ => 5) true 0 0 0 x := by decide +kernel
theorem witness_NormaliserSubtracts32 : (0 : Pattern).toNat ≤ 64 ∧ (64 : Pattern).toNat ≤ 64 := by decide
theorem witness_SignedEncoding :
    ((-64 : Int) ≤ -64 ∧ (-64 : Int) ≤ 63) ∧ ((-64 : Int) ≤ 63 ∧ (63 : Int) ≤ 63) ∧ ((-32 : Int) ≤ -32 ∧ (-32 : Int) ≤ 32) ∧
      ((-32 : Int) ≤ 32 ∧ (32 : Int) ≤ 32) := by decide
theorem witness_CellCornerCases : (1 : Input) ≠ 0 ∧ (63 : Input) ≠ 0 := by decide
theorem witness_BiasIdentities : (32 : Input) ≠ 0 := by decide
theorem witness_CellIsPure :
    (small true false false [] []).status.conv = (small true true true [.takeResponse] [(3, 0x07)]).status.conv := by decide

/-- The state that BUILD leaves from a reset, with DONE set: it meets the invariant. -/
theorem witness_BuildAgainChangesNothing :
    StateInv (setDone (buildTable Config.sboxTable (small true false false [] []))) ∧
      (setDone (buildTable Config.sboxTable (small true false false [] []))).status.done = true := by
  refine ⟨⟨?_, ?_, ?_, ?_⟩, by simp⟩
  · rw [setDone_lat]
    exact latWf_buildTable _ _ rfl
  · intro box alpha beta v h
    rw [setDone_lat, latGet_buildTable, Option.some.injEq] at h
    rw [← h, setDone_status, buildTable_status]
  · intro _ a
    rw [setDone_lat, latGet_buildTable_address]
    rfl
  · intro r h
    rw [setDone_rsp, buildTable_rsp] at h
    cases h

theorem witness_BuildEqualsCellsInAnyOrder :
    latWf (small false false false [] [(0, 0x20), (8191, 0)]).lat = true ∧ allCells.reverse.Perm allCells :=
  ⟨by decide, allCells.reverse_perm⟩
theorem witness_RdlatOfWrittenEntry :
    latGet (small false false false [] [(0, 0x20)]).lat (latAddress 0 0 0) = some 0x20 ∧
      latGet (small false false false [] [(8191, 0x60)]).lat (latAddress 7 63 15) = some 0x60 := by decide
theorem witness_RdlatOfUnwrittenEntry :
    latGet (small true false false [] [(0, 0x20)]).lat (latAddress 7 63 15) = none := by decide
theorem witness_RdlatAnswersTheBias :
    StateInv (setDone (buildTable Config.sboxTable (small true false false [] []))) ∧
      (latGet (setDone (buildTable Config.sboxTable (small true false false [] []))).lat (latAddress 7 63 15)).isSome :=
  ⟨witness_BuildAgainChangesNothing.1, by rw [setDone_lat, latGet_buildTable]; rfl⟩
theorem witness_StatCommandRuns :
    opField 0xA000 = 0b101 ∧ payloadField 0xA000 = 0 ∧ opField 0xBFFF = 0b101 ∧ payloadField 0xBFFF ≠ 0 := by decide
theorem witness_ErrorStep :
    (small true true false [.command 0xFFFF] []).host = .command 0xFFFF :: [] ∧
      (small true true false [.command 0xFFFF] []).rsp = none ∧ decode 0xFFFF = .illegal .reservedOp ∧
      (small true true false [.command 0x2001] []).host = .command 0x2001 :: [] ∧
      decode 0x2001 = .illegal .fieldNotZero := by decide

/-- First clause: an idle step with ERR set; second clause: a step that sets ERR. -/
theorem witness_ErrIsSticky :
    (∃ s t, step s = .next t ∧ s.status.err = true ∧ ¬ resetIsNext s) ∧
      ∃ s t, step s = .next t ∧ s.status.err = false ∧ t.status.err = true :=
  ⟨⟨small true false true [] [], _, rfl, rfl, by simp [resetIsNext, small]⟩,
    ⟨small true false false [.command 0] [], _, rfl, rfl, rfl⟩⟩

/-- First clause: an idle step with DONE set; second clause: BUILD from DONE = 0. -/
theorem witness_DoneIsSetByBuildOnly :
    (∃ s t, step s = .next t ∧ s.status.done = true ∧ ¬ resetIsNext s) ∧
      ∃ s t, step s = .next t ∧ s.status.done = false ∧ t.status.done = true := by
  refine ⟨⟨small true true false [] [], _, rfl, rfl, by simp [resetIsNext, small]⟩,
    ⟨small true false false [.command 0x8000] [],
      releaseDatapath (respond false 0 (setDone (buildTable Config.sboxTable
        (acceptCommand 0x8000 (hostMoves [] (small true false false [.command 0x8000] [])))))), ?_, rfl, by simp⟩⟩
  have h : commandStep 0x8000 (hostMoves [] (small true false false [.command 0x8000] [])) =
      .next (releaseDatapath (respond false 0 (setDone (buildTable Config.sboxTable
        (acceptCommand 0x8000 (hostMoves [] (small true false false [.command 0x8000] []))))))) := by
    rw [commandStep_legal (i := .build) (by decide), exec_build, mapNext_next]
  rw [← h]
  rfl

/-- An idle step, and a reset step. -/
theorem witness_ConventionChangesOnlyAtReset :
    (∃ s t, step s = .next t ∧ ¬ resetIsNext s) ∧ ∃ s t, step s = .next t ∧ s.host = .reset true :: [] :=
  ⟨⟨small true false true [] [], _, rfl, by simp [resetIsNext, small]⟩,
    ⟨small false false true [.reset true] [], _, rfl, rfl⟩⟩

/-- A session with a legal and an illegal word, and one with legal words only. -/
theorem witness_ErrRecordsTheResponses :
    (∃ u rs, session [0xA000, 0x0000] (small true false false [] []) = some (u, rs) ∧ rs = [0x01, 0x81]) ∧
      ∃ u rs, session [0xA000] (small true false false [] []) = some (u, rs) ∧ rs = [0x01] :=
  ⟨⟨_, _, rfl, by decide⟩, ⟨_, _, rfl, by decide⟩⟩

theorem witness_OneResponsePerCommand :
    ∃ s t, step s = .next t ∧ s.rsp = none ∧ t.rsp ≠ none :=
  ⟨small true false false [.command 0xA000] [], _, rfl, rfl, by simp [respond]⟩

theorem witness_CommandWaitsForTheResponse :
    ({ small true false false [.command 0xA000] [] with rsp := some 0x81 } : State).host = .command 0xA000 :: [] ∧
      ({ small true false false [.command 0xA000] [] with rsp := some 0x81 } : State).rsp = some 0x81 := by decide
theorem witness_StepRunsTheDecodedCommand :
    (small true false false [.command 0x4000] []).host = .command 0x4000 :: [] ∧
      (small true false false [.command 0x4000] []).rsp = none ∧ decode 0x4000 = .legal (.cell 0 0 0) := by decide
theorem witness_ResetStep : (small true true true [.reset false] []).host = .reset false :: [] := by decide

/-- CELL 0, 0, 0 from an empty LAT writes its entry. -/
theorem witness_OnlyCellAndBuildWriteTheLat :
    ∃ t, exec (.cell 0 0 0) (small true false false [] []) = .next t ∧
      latGet t.lat (latAddress 0 0 0) ≠ latGet (small true false false [] []).lat (latAddress 0 0 0) :=
  ⟨_, exec_cell .., by simp [small]⟩

theorem witness_WrittenStaysWritten :
    ∃ s t, step s = .next t ∧ ¬ resetIsNext s ∧ (latGet s.lat (latAddress 0 0 0)).isSome :=
  ⟨small true false false [] [(0, 0x20)], _, rfl, by simp [resetIsNext, small], by decide⟩

/-- The state that BUILD leaves meets the invariant, and its idle step answers itself. -/
theorem witness_EveryStepKeepsTheInvariant : ∃ s t, StateInv s ∧ step s = .next t := by
  refine ⟨setDone (buildTable Config.sboxTable (small true false false [] [])),
    setDone (buildTable Config.sboxTable (small true false false [] [])), witness_BuildAgainChangesNothing.1, ?_⟩
  have h : (setDone (buildTable Config.sboxTable (small true false false [] []))).host = [] := by
    rw [setDone_host, buildTable_host]
    rfl
  simp only [step, transaction, h]

theorem witness_ReachableStates : ReachableSince true (State.afterReset true [.command 0x8000] 0) := .start ..

end Sys2Proof.Tests
end

section
/-! ## The signed encoding of an entry (00_scope.md R12)

`dec7` reads a pattern as a two's complement number, so it is the library's `BitVec.toInt`, and `enc7` is `BitVec.ofInt`. -/

namespace Sys2Proof.Machine

/-- `dec7` is the two's complement reading of a pattern. -/
theorem dec7_eq_toInt (p : Pattern) : dec7 p = p.toInt := by
  unfold dec7
  rw [BitVec.toInt_eq_toNat_cond]
  split <;> split <;> omega

/-- The pattern of `n` is `n` mod 128, as a number. -/
theorem enc7_toNat (n : Int) : ((enc7 n).toNat : Int) = n % 128 := by
  have hnonneg : 0 ≤ n % 128 := Int.emod_nonneg n (by decide)
  rw [enc7, BitVec.toNat_ofInt]
  exact Int.toNat_of_nonneg hnonneg

/-- `dec7` undoes `enc7` on the range of a signed 7-bit number. -/
theorem dec7_enc7 {n : Int} (hlow : -64 ≤ n) (hhigh : n ≤ 63) : dec7 (enc7 n) = n := by
  rw [dec7_eq_toInt, enc7]
  exact BitVec.toInt_ofInt_eq_self (by decide) hlow (by omega)

/-- `enc7` undoes `dec7` on every pattern. -/
@[simp] theorem enc7_dec7 (p : Pattern) : enc7 (dec7 p) = p := by
  rw [dec7_eq_toInt, enc7, BitVec.ofInt_toInt]

/-- The sign extension of a pattern stands for the same number. -/
theorem sextTo_toInt (p : Pattern) {n : Nat} (h : 7 ≤ n) : (sextTo n p).toInt = dec7 p := by
  rw [dec7_eq_toInt, sextTo, BitVec.toInt_signExtend_of_le h]

/-- The patterns that a bias, a number in -32 to 32, can have. -/
theorem enc7_toNat_of_bias_range {n : Int} (hlow : -32 ≤ n) (hhigh : n ≤ 32) :
    (enc7 n).toNat ≤ 0x20 ∨ 0x60 ≤ (enc7 n).toNat := by
  have hmod := enc7_toNat n
  omega

/-- Settles O24: `enc7` and `dec7` are the two's complement encoding and its inverse. -/
theorem signedEncoding : Obligations.SignedEncoding :=
  ⟨fun n hlow hhigh => ⟨enc7_toNat n, dec7_enc7 hlow hhigh⟩,
    fun p => ⟨rfl, enc7_dec7 p, sextTo_toInt p (by decide)⟩,
    fun _ hlow hhigh => enc7_toNat_of_bias_range hlow hhigh⟩

end Sys2Proof.Machine
end

section
/-! ## The step on an accepted command word (00_scope.md R7; 10_state.md R20) -/

namespace Sys2Proof.Machine

/-- A command word offered while no response waits is accepted: the step is the command step on it. -/
theorem step_of_accepted_command {s : State} {w : Command} {rest : List HostAction}
    (hhost : s.host = .command w :: rest) (hrsp : s.rsp = none) :
    step s = commandStep w (hostMoves rest s) := by
  have hready : cmdReady s = true := by simp [cmdReady, hrsp]
  simp only [step, transaction, hhost, hready, if_true]

/-- Settles O48: the word is accepted, and the command step on a legal word is its command's `exec`. -/
theorem stepRunsTheDecodedCommand : Obligations.StepRunsTheDecodedCommand := by
  intro s w rest i hhost hrsp hlegal
  calc step s
      = commandStep w (hostMoves rest s) := step_of_accepted_command hhost hrsp
    _ = mapNext releaseDatapath (exec i (acceptCommand w (hostMoves rest s))) := commandStep_legal hlegal _

end Sys2Proof.Machine
end

section
/-! ## Responses and STATUS as words (10_state.md R22; 30_encoding.md R52) -/

namespace Sys2Proof.Machine

@[simp] theorem responseErr_responseWord (err : Bool) (data : Pattern) : responseErr (responseWord err data) = err := by
  rw [responseErr, responseWord, BitVec.getLsbD_append]
  cases err <;> rfl

@[simp] theorem responseData_responseWord (err : Bool) (data : Pattern) :
    responseData (responseWord err data) = data := by
  rw [responseData, responseWord, BitVec.extractLsb'_append_eq_of_add_le (by omega)]
  simp

/-- A response with `err` = 0 is, as a number, its data. -/
theorem toNat_responseWord_false (data : Pattern) : (responseWord false data).toNat = data.toNat := by
  rw [responseWord, BitVec.toNat_append]
  simp

/-- STATUS as a number and bit by bit. -/
theorem statusWord_fields (f : Status) :
    (statusWord f).toNat = f.conv.toNat + 2 * f.done.toNat + 4 * f.err.toNat ∧
      (statusWord f).getLsbD 0 = f.conv ∧ (statusWord f).getLsbD 1 = f.done ∧ (statusWord f).getLsbD 2 = f.err ∧
      (statusWord f).extractLsb' 3 4 = 0 := by
  obtain ⟨conv, done, err⟩ := f
  revert conv done err
  decide

/-- A word with STAT's operation code is STAT where its payload is zero, illegal otherwise (30_encoding.md R50). -/
theorem decode_of_stat_op {w : Command} (hop : opField w = 0b101) :
    decode w = if payloadField w = 0 then .legal .stat else .illegal .fieldNotZero := by
  by_cases hpayload : payloadField w = 0 <;> simp [decode, hop, hpayload]

/-- Settles O38: the response is STATUS, its `err` bit 0, and STAT's word has a zero payload. -/
theorem statCommandRuns : Obligations.StatCommandRuns := by
  refine ⟨fun s => ⟨responseWord false (statusWord s.status), ?_⟩, fun _ => decode_of_stat_op⟩
  obtain ⟨hnum, hconv, hdone, herr, hreserved⟩ := statusWord_fields s.status
  refine ⟨exec_stat s, ?_, responseErr_responseWord .., ?_⟩
  · rw [toNat_responseWord_false, hnum]
  · rw [responseData_responseWord]
    exact ⟨hconv, hdone, herr, hreserved⟩

end Sys2Proof.Machine
end

section
/-! ## The step on each move of the host (60_exceptions.md R104)

Beside `step_of_accepted_command` above, one equation of `step` for each other case of the host's next move. -/

namespace Sys2Proof.Machine

variable {s : State} {rest : List HostAction}

theorem step_of_no_move (hhost : s.host = []) : step s = .next s := by
  simp only [step, transaction, hhost]

theorem step_of_takeResponse (hhost : s.host = .takeResponse :: rest) :
    step s = .next (responseTaken (hostMoves rest s)) := by
  simp only [step, transaction, hhost]

theorem step_of_reset {conv : Bool} (hhost : s.host = .reset conv :: rest) :
    step s = .next (resetEngine conv (hostMoves rest s)) := by
  simp only [step, transaction, hhost]

theorem step_of_held_back_command {w : Command} (hhost : s.host = .command w :: rest) (hrsp : s.rsp ≠ none) :
    step s = .next (responseTaken s) := by
  have hready : cmdReady s = false := by simpa [cmdReady, Option.isSome_iff_ne_none] using hrsp
  simp only [step, transaction, hhost, hready, Bool.false_eq_true, if_false]

end Sys2Proof.Machine
end

section
/-! ## Reset (10_state.md R29; 70_reset_and_hazards.md R106, R107) -/

namespace Sys2Proof.Machine

/-- Settles O49: the step on a reset move is `resetEngine`. -/
theorem resetStep : Obligations.ResetStep := by
  intro s conv rest hhost
  exact ⟨_, step_of_reset hhost, by simp⟩

/-- Settles O50: `State.reset` is the state after a reset with the strap `Config.strap`. -/
theorem resetStateValues : Obligations.ResetStateValues := by
  obtain ⟨_, _, _, _, hreserved⟩ := statusWord_fields State.reset.status
  refine ⟨?_, ?_, ?_, ?_, hreserved, ?_⟩ <;> simp [State.reset, cmdReady]

/-- With no entry written, DONE = 0 and no response offered, every clause of the invariant is empty. -/
theorem stateInv_afterReset (conv : Bool) (host : List HostAction) (draws : Nat) :
    StateInv (State.afterReset conv host draws) := by
  refine ⟨?_, ?_, ?_, ?_⟩ <;> simp [entriesHoldBias, responseLegal]

/-- Settles O55: `State.reset` is one of the states after a reset. -/
theorem resetMeetsTheInvariant : Obligations.ResetMeetsTheInvariant :=
  ⟨stateInv_afterReset, stateInv_afterReset Config.strap [] 0⟩

end Sys2Proof.Machine
end

section
/-! ## What a step does to the flags (10_state.md R23 to R25) -/

namespace Sys2Proof.Machine

/-- The word of BUILD is the only one that decodes to it (30_encoding.md R49). -/
theorem eq_of_decode_build {w : Command} (h : decode w = .legal .build) : w = 0x8000 := by
  have hfields : opField w = 0b100 ∧ payloadField w = 0 := by
    unfold decode at h
    split_ifs at h <;> simp_all
  obtain ⟨hop, hpayload⟩ := hfields
  obtain ⟨hbox, ha, hb⟩ := (payloadField_eq_zero w).mp hpayload
  exact word_ext.mpr ⟨hop, hbox, ha, hb⟩

/-- A legal command leaves STATUS alone, but BUILD sets DONE. -/
theorem exec_status {i : Instr} {s t : State} (h : exec i s = .next t) :
    t.status = s.status ∨ (i = .build ∧ t.status = { s.status with done := true }) := by
  obtain ⟨_, _, _, rfl⟩ | ⟨_, _, _, _, rfl⟩ | ⟨_, _, _, _, rfl⟩ | ⟨hbuild, rfl⟩ | ⟨_, rfl⟩ := exec_cases h
  · exact .inl (respond_status ..)
  · exact .inl (by simp)
  · exact .inl (by simp)
  · exact .inr ⟨hbuild, by simp⟩
  · exact .inl (respond_status ..)

/-- What a step does to STATUS: nothing, or a reset, or BUILD's DONE, or an illegal command's ERR. -/
theorem step_status {s t : State} (h : step s = .next t) :
    t.status = s.status ∨
    (resetIsNext s ∧ t.status.done = false ∧ t.status.err = false) ∨
    (∃ rest, s.host = .command 0x8000 :: rest ∧ s.rsp = none ∧ t.status = { s.status with done := true }) ∨
    (∃ w rest c, s.host = .command w :: rest ∧ s.rsp = none ∧ decode w = .illegal c ∧
      t.status = { s.status with err := true }) := by
  obtain ⟨_, rfl⟩ | ⟨_, _, rfl⟩ | ⟨conv, rest, hhost, rfl⟩ | ⟨_, _, _, _, rfl⟩ | ⟨w, rest, hhost, hrsp, hcmd⟩ := step_cases h
  · exact .inl rfl
  · exact .inl (by simp)
  · exact .inr (.inl ⟨⟨conv, rest, hhost⟩, by simp⟩)
  · exact .inl (by simp)
  · obtain ⟨i, u, hlegal, hexec, rfl⟩ | ⟨c, hillegal, rfl⟩ := commandStep_cases hcmd
    · obtain hsame | ⟨rfl, hdone⟩ := exec_status hexec
      · exact .inl (by simpa using hsame)
      · obtain rfl := eq_of_decode_build hlegal
        exact .inr (.inr (.inl ⟨rest, hhost, hrsp, by simpa using hdone⟩))
    · exact .inr (.inr (.inr ⟨w, rest, c, hhost, hrsp, hillegal, by simp⟩))

/-- Settles O42, by the four things a step can do to STATUS. -/
theorem errIsSticky : Obligations.ErrIsSticky := by
  intro s t h
  obtain hsame | ⟨hreset, _, herr⟩ | ⟨_, _, _, hbuild⟩ | ⟨w, rest, c, hhost, hrsp, hillegal, hset⟩ := step_status h
  · simp +contextual [hsame]
  · simp [hreset, herr]
  · simp +contextual [hbuild]
  · exact ⟨fun _ _ => by rw [hset], fun _ _ => ⟨w, rest, c, hhost, hrsp, hillegal⟩⟩

/-- Settles O43, by the four things a step can do to STATUS. -/
theorem doneIsSetByBuildOnly : Obligations.DoneIsSetByBuildOnly := by
  intro s t h
  obtain hsame | ⟨hreset, hdone, _⟩ | ⟨rest, hhost, hrsp, hset⟩ | ⟨_, _, _, _, _, _, hillegal⟩ := step_status h
  · simp +contextual [hsame]
  · simp [hreset, hdone]
  · exact ⟨fun _ _ => by rw [hset], fun _ _ => ⟨rest, hhost, hrsp⟩⟩
  · simp +contextual [hillegal]

/-- Settles O44: neither BUILD's nor an illegal command's write to STATUS reaches CONV. -/
theorem conventionChangesOnlyAtReset : Obligations.ConventionChangesOnlyAtReset := by
  intro s t h
  constructor
  · intro hno
    obtain hsame | ⟨hreset, _⟩ | ⟨_, _, _, hbuild⟩ | ⟨_, _, _, _, _, _, hillegal⟩ := step_status h
    · rw [hsame]
    · exact absurd hreset hno
    · rw [hbuild]
    · rw [hillegal]
  · intro conv rest hhost
    rw [step_of_reset hhost, Host.Outcome.next.injEq] at h
    rw [← h, resetEngine_status]

end Sys2Proof.Machine
end

section
/-! ## The datapath registers are not observable (10_state.md R17) -/

namespace Sys2Proof.Machine

/-- Two states agree up to CMD, SEQ and CNT exactly where their other fields agree. -/
theorem forgetDatapath_eq_iff {s s' : State} :
    forgetDatapath s = forgetDatapath s' ↔
      s.lat = s'.lat ∧ s.status = s'.status ∧ s.rsp = s'.rsp ∧ s.host = s'.host ∧ s.draws = s'.draws := by
  simp [forgetDatapath]

/-- The LAT that a run of cells leaves depends on the LAT and CONV before it, not on the datapath registers. -/
theorem runCells_lat_congr (table : SboxTable) (cells : List (SboxIndex × Input × Output)) {s s' : State}
    (hlat : s.lat = s'.lat) (hstatus : s.status = s'.status) :
    (runCells table cells s).lat = (runCells table cells s').lat := by
  induction cells generalizing s s' with
  | nil => exact hlat
  | cons c rest ih =>
    rw [runCells_cons, runCells_cons]
    exact ih (by simp only [runCell_lat, hlat, hstatus]) (by simp only [runCell_status, hstatus])

/-- A legal command has the same outcome from two states that agree up to CMD, SEQ and CNT, those registers apart. -/
theorem exec_forgetDatapath (i : Instr) {s s' : State} (h : forgetDatapath s = forgetDatapath s') :
    ∃ u u', exec i s = .next u ∧ exec i s' = .next u' ∧ forgetDatapath u = forgetDatapath u' := by
  simp only [forgetDatapath_eq_iff] at h ⊢
  obtain ⟨hlat, hstatus, hrsp, hhost, hdraws⟩ := h
  cases i with
  | sbox box x => exact ⟨_, _, exec_sbox .., exec_sbox .., by simp [*]⟩
  | cell box alpha beta => exact ⟨_, _, exec_cell .., exec_cell .., by simp [*]⟩
  | rdlat box alpha beta => exact ⟨_, _, exec_rdlat .., exec_rdlat .., by simp [latReadValue, *]⟩
  | build =>
    refine ⟨_, _, exec_build _, exec_build _, ?_⟩
    have hbuild := runCells_lat_congr Config.sboxTable allCells hlat hstatus
    simp [buildTable, *]
  | stat => exact ⟨_, _, exec_stat _, exec_stat _, by simp [*]⟩

/-- The release of the datapath registers erases what they held. -/
theorem releaseDatapath_congr {s s' : State} (h : forgetDatapath s = forgetDatapath s') :
    releaseDatapath s = releaseDatapath s' := by
  obtain ⟨hlat, hstatus, hrsp, hhost, hdraws⟩ := forgetDatapath_eq_iff.mp h
  simp [releaseDatapath, *]

/-- A command step overwrites CMD before it reads it and releases the registers at its end. -/
theorem commandStep_congr (w : Command) {s s' : State} (h : forgetDatapath s = forgetDatapath s') :
    commandStep w s = commandStep w s' := by
  have haccept : forgetDatapath (acceptCommand w s) = forgetDatapath (acceptCommand w s') := by
    simpa [forgetDatapath_eq_iff] using h
  cases hd : decode w with
  | legal i =>
    obtain ⟨u, u', hu, hu', huu'⟩ := exec_forgetDatapath i haccept
    rw [commandStep_legal hd, commandStep_legal hd, hu, hu', mapNext_next, mapNext_next, releaseDatapath_congr huu']
  | illegal c =>
    have hraise : forgetDatapath (raiseIllegal c (acceptCommand w s)) =
        forgetDatapath (raiseIllegal c (acceptCommand w s')) := by
      obtain ⟨hlat, hstatus, _, hhost, hdraws⟩ := forgetDatapath_eq_iff.mp h
      simp [forgetDatapath_eq_iff, *]
    rw [commandStep_illegal hd, commandStep_illegal hd, releaseDatapath_congr hraise]

/-- Two states that agree up to CMD, SEQ and CNT have the same step, those registers apart: by the host's next move. -/
theorem step_forgetDatapath {s s' : State} (h : forgetDatapath s = forgetDatapath s') :
    mapNext forgetDatapath (step s) = mapNext forgetDatapath (step s') := by
  obtain ⟨hlat, hstatus, hrsp, hhost, hdraws⟩ := forgetDatapath_eq_iff.mp h
  cases hmove : s'.host with
  | nil => simp only [step_of_no_move hmove, step_of_no_move (hhost.trans hmove), mapNext_next, h]
  | cons move rest =>
    cases move with
    | takeResponse =>
      simp [step_of_takeResponse hmove, step_of_takeResponse (hhost.trans hmove), forgetDatapath_eq_iff, *]
    | reset conv =>
      simp [step_of_reset hmove, step_of_reset (hhost.trans hmove), forgetDatapath_eq_iff, *]
    | command w =>
      by_cases hwait : s'.rsp = none
      · have hmoves : forgetDatapath (hostMoves rest s) = forgetDatapath (hostMoves rest s') := by
          simp [forgetDatapath_eq_iff, *]
        rw [step_of_accepted_command hmove hwait, step_of_accepted_command (hhost.trans hmove) (hrsp.trans hwait),
          commandStep_congr w hmoves]
      · simp [step_of_held_back_command hmove hwait, step_of_held_back_command (hhost.trans hmove) (hrsp ▸ hwait),
          forgetDatapath_eq_iff, *]

/-- Settles O53: the two states agree up to CMD, SEQ and CNT. -/
theorem datapathRegistersUnobservable : Obligations.DatapathRegistersUnobservable :=
  fun _ _ => step_forgetDatapath rfl

end Sys2Proof.Machine
end

section
/-! ## The match counter (10_state.md R18) -/

namespace Sys2Proof.Machine

variable (table : SboxTable) (conv : Bool) (box : SboxIndex) (alpha : Input) (beta : Output)

/-- The count over the first `k` inputs is the number of matches among them (41_lat_cell.md R73). -/
theorem length_filter_matchBit (k : Nat) :
    (((List.range k).map (BitVec.ofNat 6)).filter fun x => matchBit table conv box alpha beta x).length =
      countBelow table conv box alpha beta k := by
  induction k with
  | zero => rfl
  | succ k ih =>
    rw [List.range_succ, List.map_append, List.filter_append, List.length_append, ih, countBelow]
    cases hmatch : matchBit table conv box alpha beta (BitVec.ofNat 6 k) <;> simp [hmatch]

theorem take_allInputs {k : Nat} (hk : k ≤ 64) : allInputs.take k = (List.range k).map (BitVec.ofNat 6) := by
  rw [allInputs, ← List.map_take, List.take_range, Nat.min_eq_left hk]

/-- Settles O21: CNT is `countBelow`, at most `k`, so below 128. -/
theorem matchCounterNeverOverflows : Obligations.MatchCounterNeverOverflows := by
  intro table conv box alpha beta d k hk
  have hle := countBelow_le table conv box alpha beta k
  have hcnt : ((allInputs.take k).foldl (elementaryOp table conv box alpha beta) { d with cnt := 0 }).cnt.toNat =
      countBelow table conv box alpha beta k := by
    rw [take_allInputs hk, foldl_elementaryOp_cnt]
    simp only [BitVec.zero_add, BitVec.ofNat_eq_ofNat, BitVec.toNat_ofNat]
    omega
  rw [hcnt, take_allInputs hk, length_filter_matchBit]
  exact ⟨rfl, hle⟩

end Sys2Proof.Machine
end

section
/-! ## The sequencer against the loop nest (10_state.md R19, R21; 42_lat_build.md R82, R83)

Elementary operation `64 * k + j` of the sequencer is input `j` of cell `k` of the loop nest. The two differ in SEQ alone: the
sequencer has advanced it to the next operation, the loop nest leaves it at the last one done. -/

namespace Sys2Proof.Machine

variable (table : SboxTable) (conv : Bool)

/-- SEQ before elementary operation `n`: it counts up to its top and stays there. -/
def seqAt (n : Nat) : BitVec 19 := BitVec.ofNat 19 (min n 524287)

/-- The LAT and the registers of `p`, with SEQ standing before elementary operation `n`. -/
def atSeq (n : Nat) (p : LatRam × Datapath) : LatRam × Datapath := (p.1, { p.2 with seq := seqAt n })

/-- The cell at position `k` of the loop nest. -/
def cellAt (k : Nat) : SboxIndex × Input × Output :=
  (latBox (BitVec.ofNat 13 k), latAlpha (BitVec.ofNat 13 k), latBeta (BitVec.ofNat 13 k))

/-- The first `m` elementary operations of the cell at position `k`, from CNT = 0. -/
def partialCell (k m : Nat) (d : Datapath) : Datapath :=
  ((List.range m).map (BitVec.ofNat 6)).foldl (elementaryOp table conv (cellAt k).1 (cellAt k).2.1 (cellAt k).2.2)
    { d with cnt := 0 }

/-- The loop nest's run of the cell at position `k`. -/
def cellWorkAt (k : Nat) (p : LatRam × Datapath) : LatRam × Datapath :=
  cellWork table conv (cellAt k).1 (cellAt k).2.1 (cellAt k).2.2 p

theorem toNat_seqAt (n : Nat) : (seqAt n).toNat = min n 524287 := by
  simp only [seqAt, BitVec.toNat_ofNat]
  omega

/-- SEQ before operation `64 * k + j` names cell `k` and input `j`. -/
theorem seqAt_eq_seqPack {k j : Nat} (hk : k < 8192) (hj : j < 64) :
    seqAt (64 * k + j) = seqPack (cellAt k).1 (cellAt k).2.1 (cellAt k).2.2 (BitVec.ofNat 6 j) := by
  have hpack : seqPack (cellAt k).1 (cellAt k).2.1 (cellAt k).2.2 (BitVec.ofNat 6 j) =
      BitVec.ofNat 13 k ++ BitVec.ofNat 6 j := congrArg (· ++ BitVec.ofNat 6 j) (latAddress_fields (BitVec.ofNat 13 k))
  apply BitVec.eq_of_toNat_eq
  rw [hpack, toNat_seqAt, BitVec.toNat_append,
    ← Nat.shiftLeft_add_eq_or_of_lt (BitVec.isLt _), Nat.shiftLeft_eq, BitVec.toNat_ofNat, BitVec.toNat_ofNat]
  omega

/-- The advance of SEQ, which stays at its top (10_state.md R21). -/
theorem seqAt_advance {n : Nat} (hn : n < 524288) :
    (if seqAt n = seqTop then seqAt n else seqAt n + 1) = seqAt (n + 1) := by
  have htop : seqAt n = seqTop ↔ n = 524287 := by
    rw [← BitVec.toNat_inj, toNat_seqAt, seqTop, show (0x7FFFF : BitVec 19).toNat = 524287 from rfl]
    omega
  apply BitVec.eq_of_toNat_eq
  split <;> rename_i h <;> rw [htop] at h
  · rw [toNat_seqAt, toNat_seqAt]
    omega
  · rw [BitVec.toNat_add, toNat_seqAt, toNat_seqAt, show (1 : BitVec 19).toNat = 1 from rfl]
    omega

theorem partialCell_succ (k m : Nat) (d : Datapath) :
    partialCell table conv k (m + 1) d =
      elementaryOp table conv (cellAt k).1 (cellAt k).2.1 (cellAt k).2.2 (partialCell table conv k m d)
        (BitVec.ofNat 6 m) := by
  simp [partialCell, List.range_succ]

theorem partialCell_64 (k : Nat) (p : LatRam × Datapath) :
    partialCell table conv k 64 p.2 = (cellWorkAt table conv k p).2 := by
  rw [partialCell, cellWorkAt, cellWork, accumulate, allInputs]

/-- The LAT and the registers after `j` of the 64 elementary operations of cell `k`: before the first CNT is not yet cleared, and
only the last writes the entry. -/
def duringCell (k j : Nat) (p : LatRam × Datapath) : LatRam × Datapath :=
  (if j = 64 then (cellWorkAt table conv k p).1 else p.1, if j = 0 then p.2 else partialCell table conv k j p.2)

theorem duringCell_zero (k : Nat) (p : LatRam × Datapath) : duringCell table conv k 0 p = p := by
  simp [duringCell]

theorem duringCell_64 (k : Nat) (p : LatRam × Datapath) : duringCell table conv k 64 p = cellWorkAt table conv k p := by
  simp [duringCell, partialCell_64]

/-- The register part of an elementary operation of the sequencer: CNT is cleared before the first input of a cell. -/
theorem addMatch_clearAtFirst {k j : Nat} (hk : k < 8192) (hj : j < 64) (p : LatRam × Datapath) :
    addMatch table conv (clearAtFirst (atSeq (64 * k + j) (duringCell table conv k j p)).2) =
      partialCell table conv k (j + 1) p.2 := by
  have hx : seqX (seqAt (64 * k + j)) = BitVec.ofNat 6 j := by rw [seqAt_eq_seqPack hk hj, seqX_seqPack]
  rw [partialCell_succ, elementaryOp, ← seqAt_eq_seqPack hk hj, clearAtFirst, atSeq, hx, duringCell]
  by_cases hfirst : j = 0
  · subst hfirst
    rfl
  · have hx0 : BitVec.ofNat 6 j ≠ 0 := by
      rw [ne_eq, ← BitVec.toNat_inj, BitVec.toNat_ofNat, Nat.mod_eq_of_lt hj]
      exact hfirst
    rw [if_neg hfirst, if_neg hx0]

theorem partialCell_seq {k j : Nat} (hk : k < 8192) (hj : j < 64) (d : Datapath) :
    (partialCell table conv k (j + 1) d).seq = seqAt (64 * k + j) := by
  rw [partialCell_succ, elementaryOp_seq, seqAt_eq_seqPack hk hj]

/-- The LAT part: the entry of the cell is written after its last input. -/
theorem latPut_afterLast {k j : Nat} (hk : k < 8192) (hj : j < 64) (p : LatRam × Datapath) :
    (if seqX (seqAt (64 * k + j)) = 63 then
        latPut (duringCell table conv k j p).1 (seqCell (seqAt (64 * k + j)))
          (normalise (partialCell table conv k (j + 1) p.2).cnt)
      else (duringCell table conv k j p).1) = (duringCell table conv k (j + 1) p).1 := by
  have hlast : BitVec.ofNat 6 j = 63 ↔ j = 63 := by
    rw [← BitVec.toNat_inj, BitVec.toNat_ofNat, Nat.mod_eq_of_lt hj]
    rfl
  have hj64 : j ≠ 64 := by omega
  simp only [seqAt_eq_seqPack hk hj, seqX_seqPack, seqCell_seqPack, hlast]
  by_cases hj63 : j = 63
  · subst hj63
    simp [duringCell, partialCell_64, cellWorkAt, normalise_ofNat, bias]
  · simp [duringCell, hj63, hj64]

/-- One elementary operation of the sequencer is the next input of the cell of the loop nest. -/
theorem sequencerTick_atSeq {k j : Nat} (hk : k < 8192) (hj : j < 64) (p : LatRam × Datapath) :
    sequencerTick table conv (atSeq (64 * k + j) (duringCell table conv k j p)) =
      atSeq (64 * k + (j + 1)) (duringCell table conv k (j + 1) p) := by
  have hregs : (duringCell table conv k (j + 1) p).2 = partialCell table conv k (j + 1) p.2 := by simp [duringCell]
  have hlat : (atSeq (64 * k + j) (duringCell table conv k j p)).1 = (duringCell table conv k j p).1 := rfl
  simp only [sequencerTick, addMatch_clearAtFirst table conv hk hj, partialCell_seq table conv hk hj]
  rw [hlat, latPut_afterLast table conv hk hj, seqAt_advance (by omega), atSeq, hregs, Nat.add_assoc]

theorem sequencerTicks_eq_iterate (n : Nat) (p : LatRam × Datapath) :
    sequencerTicks table conv n p = (sequencerTick table conv)^[n] p := by
  induction n generalizing p with
  | zero => rfl
  | succ n ih => exact ih _

/-- The first `j` elementary operations of a cell. -/
theorem iterate_sequencerTick_cell {k j : Nat} (hk : k < 8192) (hj : j ≤ 64) (p : LatRam × Datapath) :
    (sequencerTick table conv)^[j] (atSeq (64 * k) p) = atSeq (64 * k + j) (duringCell table conv k j p) := by
  induction j with
  | zero => rw [duringCell_zero]; rfl
  | succ j ih => rw [Function.iterate_succ_apply', ih (by omega), sequencerTick_atSeq table conv hk (by omega)]

/-- The elementary operations of the first `n` cells. -/
theorem iterate_sequencerTick_cells {n : Nat} (hn : n ≤ 8192) (p : LatRam × Datapath) :
    (sequencerTick table conv)^[64 * n] (atSeq 0 p) =
      atSeq (64 * n) ((List.range n).foldl (fun q k => cellWorkAt table conv k q) p) := by
  induction n with
  | zero => rfl
  | succ n ih =>
    rw [Nat.mul_succ, Nat.add_comm, Function.iterate_add_apply, ih (by omega),
      iterate_sequencerTick_cell table conv (by omega) le_rfl, duringCell_64, List.range_succ, List.foldl_append,
      Nat.add_comm]
    rfl

/-- A cell's run leaves SEQ at the cell's last elementary operation. -/
theorem cellWorkAt_seq {k : Nat} (hk : k < 8192) (p : LatRam × Datapath) :
    (cellWorkAt table conv k p).2.seq = seqAt (64 * k + 63) := by
  rw [← partialCell_64, partialCell_seq table conv hk (by decide)]

/-- The loop nest over the cells by position leaves SEQ at its top, where the sequencer leaves it (10_state.md R21). -/
theorem foldl_cellWorkAt_seq (p : LatRam × Datapath) :
    ((List.range 8192).foldl (fun q k => cellWorkAt table conv k q) p).2.seq = seqAt (64 * 8192) := by
  rw [List.range_succ, List.foldl_append, List.foldl_cons, List.foldl_nil, cellWorkAt_seq table conv (by decide)]
  rfl

/-- The cells of the loop nest by position. -/
theorem buildTable_eq (s : State) :
    buildTable table s =
      withWork s ((List.range 8192).foldl (fun q k => cellWorkAt table s.status.conv k q) (s.lat, s.dp)) := by
  rw [buildTable, runCells, allCells_eq, List.foldl_map]
  rfl

/-- Where SEQ stands before operation `n` already, `atSeq` changes nothing. -/
theorem atSeq_of_seq {n : Nat} {p : LatRam × Datapath} (h : p.2.seq = seqAt n) : atSeq n p = p := by
  rw [atSeq, ← h]

/-- Settles O33: by cells, and in a cell by its 64 inputs; at the end SEQ is at its top on both sides. -/
theorem sequencerDoesTheLoopNest : Obligations.SequencerDoesTheLoopNest := by
  intro table s
  have hstart : (s.lat, { s.dp with seq := 0 }) = atSeq 0 (s.lat, s.dp) := rfl
  rw [buildTable_eq, sequencerBuild, sequencerTicks_eq_iterate, hstart, show 524288 = 64 * 8192 from rfl,
    iterate_sequencerTick_cells _ _ le_rfl, atSeq_of_seq (foldl_cellWorkAt_seq ..)]

end Sys2Proof.Machine
end

section
/-! ## ROM and LAT addresses as numbers (20_memory.md R32, R35)

The addresses are made by concatenation, so as numbers they are the fields in a mixed radix. -/

namespace Sys2Proof.Machine

/-- A concatenation as a number: the high part counts in units of the size of the low part. -/
theorem toNat_append_eq_add {m n : Nat} (hi : BitVec m) (lo : BitVec n) :
    (hi ++ lo).toNat = 2 ^ n * hi.toNat + lo.toNat := by
  rw [BitVec.toNat_append, ← Nat.shiftLeft_add_eq_or_of_lt lo.isLt, Nat.shiftLeft_eq, Nat.mul_comm]

/-- The ROM address as a number (20_memory.md R32). -/
theorem toNat_romAddress (box : SboxIndex) (row : Row) (col : Col) :
    (romAddress box row col).toNat = 64 * box.toNat + 16 * row.toNat + col.toNat := by
  rw [romAddress, toNat_append_eq_add, toNat_append_eq_add]
  omega

/-- The LAT address as a number (20_memory.md R35). -/
theorem toNat_latAddress (box : SboxIndex) (alpha : Input) (beta : Output) :
    (latAddress box alpha beta).toNat = 1024 * box.toNat + 16 * alpha.toNat + beta.toNat := by
  rw [latAddress, toNat_append_eq_add, toNat_append_eq_add]
  omega

/-- Settles O13: making an address and taking its fields undo each other. -/
theorem romAddressBijection : Obligations.RomAddressBijection :=
  ⟨fun box row col => ⟨toNat_romAddress box row col, romBox_romAddress .., romRow_romAddress .., romCol_romAddress ..⟩,
    romAddress_fields⟩

/-- Settles O15: making an address and taking its fields undo each other. -/
theorem latAddressBijection : Obligations.LatAddressBijection :=
  ⟨fun box alpha beta =>
    ⟨toNat_latAddress box alpha beta, latBox_latAddress .., latAlpha_latAddress .., latBeta_latAddress ..⟩,
    latAddress_fields⟩

/-- The row and the column under the flat convention are the input, cut in two (40_sbox_lookup.md R63). -/
theorem flatRow_append_flatCol (x : Input) : flatRow x ++ flatCol x = x := by
  rw [flatRow, flatCol, BitVec.extractLsb'_append_extractLsb'_eq_extractLsb' (by omega)]
  exact BitVec.extractLsb'_eq_self

/-- In the ROM address row and column stand side by side, below the S-box index. -/
theorem romAddress_eq_append (box : SboxIndex) (row : Row) (col : Col) : romAddress box row col = box ++ (row ++ col) :=
  BitVec.append_assoc

/-- Under the flat convention the ROM address of an input is the S-box index and the input (20_memory.md section 2). -/
theorem romAddress_rowCol_flat (box : SboxIndex) (x : Input) :
    romAddress box (rowCol true x).1 (rowCol true x).2 = box ++ x :=
  calc romAddress box (flatRow x) (flatCol x)
      = box ++ (flatRow x ++ flatCol x) := romAddress_eq_append ..
    _ = box ++ x := by rw [flatRow_append_flatCol]

/-- Under the outer-bit convention the ROM address of an input is the S-box index, the two outer bits and the four inner bits
(20_memory.md section 2). -/
theorem romAddress_rowCol_outer (box : SboxIndex) (x : Input) :
    romAddress box (rowCol false x).1 (rowCol false x).2 =
      box ++ x.extractLsb' 5 1 ++ x.extractLsb' 0 1 ++ x.extractLsb' 1 4 := by
  have hrow : box ++ outerRow x = box ++ x.extractLsb' 5 1 ++ x.extractLsb' 0 1 :=
    (BitVec.append_assoc (x₁ := box) (x₂ := x.extractLsb' 5 1) (x₃ := x.extractLsb' 0 1)).symm
  exact congrArg (· ++ outerCol x) hrow

/-- Settles O14: the two bit forms, and the flat one as a number. -/
theorem romAddressByConvention : Obligations.RomAddressByConvention := by
  intro box x
  have hflat := romAddress_rowCol_flat box x
  exact ⟨romAddress_rowCol_outer box x, hflat, by rw [hflat]; exact toNat_append_eq_add box x⟩

end Sys2Proof.Machine
end

section
/-! ## Reads of the LAT (20_memory.md R36; 43_readout_status.md R89, R90) -/

namespace Sys2Proof.Machine

/-- A read of a written entry gives the stored pattern. -/
theorem latReadValue_of_written {s : State} {a : LatAddress} {v : Pattern} (h : latGet s.lat a = some v) :
    latReadValue a s = v := by
  rw [latReadValue, h, Option.getD_some]

/-- A read of a written entry draws no free value, so it changes nothing at all. -/
theorem latReadState_of_written {s : State} {a : LatAddress} {v : Pattern} (h : latGet s.lat a = some v) :
    latReadState a s = s := by
  rw [latReadState, h, Option.isSome_some, if_pos rfl]

/-- Settles O35: neither the value read nor the state after the read depends on a draw. -/
theorem rdlatOfWrittenEntry : Obligations.RdlatOfWrittenEntry := by
  intro box alpha beta s v h
  rw [exec_rdlat, latReadValue_of_written h, latReadState_of_written h, respond]

/-- Settles O36: the data is the value drawn, and a read changes at most the counter of free values. -/
theorem rdlatOfUnwrittenEntry : Obligations.RdlatOfUnwrittenEntry := by
  intro box alpha beta s _
  exact ⟨latReadValue (latAddress box alpha beta) s, _, exec_rdlat .., by simp⟩

/-- Settles O47: the step on a command that is held back is the taking of the response. -/
theorem commandWaitsForTheResponse : Obligations.CommandWaitsForTheResponse := by
  intro s w rest r hhost hrsp
  rw [step_of_held_back_command hhost (by simp [hrsp]), responseTaken]

end Sys2Proof.Machine
end

section
/-! ## Writes of the LAT (20_memory.md R37) -/

namespace Sys2Proof.Machine

/-- What a command does to the LAT: nothing, or CELL's write of the bias to the cell's entry, or BUILD's loop nest. -/
theorem exec_lat {i : Instr} {s t : State} (h : exec i s = .next t) :
    t.lat = s.lat ∨
    (∃ box alpha beta, i = .cell box alpha beta ∧
      t.lat = latPut s.lat (latAddress box alpha beta) (enc7 (bias Config.sboxTable s.status.conv box alpha beta))) ∨
    (i = .build ∧ t.lat = (buildTable Config.sboxTable s).lat) := by
  obtain ⟨_, _, _, rfl⟩ | ⟨box, alpha, beta, hcell, rfl⟩ | ⟨_, _, _, _, rfl⟩ | ⟨hbuild, rfl⟩ | ⟨_, rfl⟩ := exec_cases h
  · exact .inl (respond_lat ..)
  · exact .inr (.inl ⟨box, alpha, beta, hcell, by rw [respond_lat, runCell_lat]⟩)
  · exact .inl (by rw [respond_lat, latReadState_lat])
  · exact .inr (.inr ⟨hbuild, by rw [respond_lat, setDone_lat]⟩)
  · exact .inl (respond_lat ..)

/-- Settles O51: by the three things a command can do to the LAT. CELL's write reaches the entry at `a` only if `a` is the cell's
own address, whose fields are then CELL's operands. -/
theorem onlyCellAndBuildWriteTheLat : Obligations.OnlyCellAndBuildWriteTheLat := by
  constructor
  · intro a v s
    rw [latWrite_lat]
    exact ⟨latGet_latPut_same .., fun b hb => latGet_latPut_other hb.symm ..⟩
  · intro i s t a hexec hchanged
    obtain hsame | ⟨box, alpha, beta, rfl, hput⟩ | ⟨hbuild, htable⟩ := exec_lat hexec
    · exact absurd (congrArg (latGet · a) hsame) hchanged
    · have haddr : latAddress box alpha beta = a := by
        by_contra hne
        exact hchanged (by rw [hput, latGet_latPut_other hne])
      subst haddr
      simp [hput]
    · exact ⟨by rw [htable, latGet_buildTable_address], .inl hbuild⟩

end Sys2Proof.Machine
end

section
/-! ## BUILD and the CELL commands in any order (42_lat_build.md R87) -/

namespace Sys2Proof.Machine

/-- The LAT that a run of cells leaves does not depend on their order. -/
theorem runCells_lat_of_perm (table : SboxTable) {cells cells' : List (SboxIndex × Input × Output)}
    (hperm : cells.Perm cells') {s : State} (hwf : latWf s.lat = true) :
    (runCells table cells s).lat = (runCells table cells' s).lat := by
  refine lat_ext (latWf_runCells table cells s hwf) (latWf_runCells table cells' s hwf) fun a => ?_
  rw [← latAddress_fields a, latGet_runCells, latGet_runCells]
  simp only [hperm.mem_iff]

/-- CELL commands one after another complete, leave the LAT that a run of their cells leaves, and keep STATUS. -/
theorem runInstrs_cells (cells : List (SboxIndex × Input × Output)) (s : State) :
    ∃ t, runInstrs (cells.map fun c => .cell c.1 c.2.1 c.2.2) s = .next t ∧
      t.lat = (runCells Config.sboxTable cells s).lat ∧ t.status = s.status := by
  induction cells generalizing s with
  | nil => exact ⟨s, rfl, by rw [runCells_nil], rfl⟩
  | cons c rest ih =>
    obtain ⟨t, hrun, hlat, hstatus⟩ := ih (respond false (enc7 (bias Config.sboxTable s.status.conv c.1 c.2.1 c.2.2))
      (runCell Config.sboxTable c.1 c.2.1 c.2.2 s))
    refine ⟨t, ?_, ?_, ?_⟩
    · simp only [List.map_cons, runInstrs, exec_cell, hrun]
    · rw [hlat, runCells_cons]
      exact runCells_lat_congr _ _ (respond_lat ..) (respond_status ..)
    · rw [hstatus, respond_status, runCell_status]

/-- Settles O34: the CELL commands run the cells of the loop nest in another order, and after either every entry is written, so that
RDLAT answers what the LAT holds. -/
theorem buildEqualsCellsInAnyOrder : Obligations.BuildEqualsCellsInAnyOrder := by
  intro s cells hwf hperm
  obtain ⟨t, hrun, hcells, hstatus⟩ := runInstrs_cells cells s
  have htable : t.lat = (buildTable Config.sboxTable s).lat := hcells.trans (runCells_lat_of_perm _ hperm hwf)
  have hbuild : (respond false 0 (setDone (buildTable Config.sboxTable s))).lat = (buildTable Config.sboxTable s).lat := by
    rw [respond_lat, setDone_lat]
  refine ⟨t, _, hrun, exec_build s, htable.trans hbuild.symm, hstatus, by simp [hstatus], fun box alpha beta => ?_⟩
  have hwritten := latGet_buildTable Config.sboxTable s box alpha beta
  exact ⟨_, _, rdlatOfWrittenEntry box alpha beta t _ (by rw [htable, hwritten]),
    rdlatOfWrittenEntry box alpha beta _ _ (by rw [hbuild, hwritten]), rfl⟩

end Sys2Proof.Machine
end

section
/-! ## The decoder, by operation code (30_encoding.md R49, R50)

One equation of `decode` for each operation code beside `decode_of_stat_op` above; what the decoder does is read from them. -/

namespace Sys2Proof.Machine

variable {w : Command}

/-- The operation codes that name no command are illegal, cause 1. -/
theorem decode_of_reserved_op (hop : opField w = 0b000 ∨ opField w = 0b110 ∨ opField w = 0b111) :
    decode w = .illegal .reservedOp := by
  simp only [decode, if_pos hop]

theorem decode_of_sbox_op (hop : opField w = 0b001) :
    decode w = if outputField w = 0 then .legal (.sbox (boxField w) (inputField w)) else .illegal .fieldNotZero := by
  by_cases hb : outputField w = 0 <;> simp [decode, hop, hb]

theorem decode_of_cell_op (hop : opField w = 0b010) :
    decode w = .legal (.cell (boxField w) (inputField w) (outputField w)) := by
  simp [decode, hop]

theorem decode_of_rdlat_op (hop : opField w = 0b011) :
    decode w = .legal (.rdlat (boxField w) (inputField w) (outputField w)) := by
  simp [decode, hop]

theorem decode_of_build_op (hop : opField w = 0b100) :
    decode w = if payloadField w = 0 then .legal .build else .illegal .fieldNotZero := by
  by_cases hpayload : payloadField w = 0 <;> simp [decode, hop, hpayload]

/-- A word has a reserved operation code or the one of a command. -/
theorem opField_cases (w : Command) :
    (opField w = 0b000 ∨ opField w = 0b110 ∨ opField w = 0b111) ∨ opField w = 0b001 ∨ opField w = 0b010 ∨
      opField w = 0b011 ∨ opField w = 0b100 ∨ opField w = 0b101 := by
  generalize opField w = op
  revert op
  decide

/-- Decoding undoes encoding, by the operation code of each command. -/
theorem decode_encode (i : Instr) : decode (encode i) = .legal i := by
  cases i with
  | sbox box x => simp [encode, decode_of_sbox_op]
  | cell box alpha beta => simp [encode, decode_of_cell_op]
  | rdlat box alpha beta => simp [encode, decode_of_rdlat_op]
  | build => decide
  | stat => decide

/-- Settles O3: every command, at every operand value, comes back from its word. -/
theorem decodeOfEncode : Obligations.DecodeOfEncode := fun i _ => decode_encode i

/-- A word with a zero payload is made of its operation code and zeros. -/
theorem packWord_of_payload_zero {op : BitVec 3} (hop : opField w = op) (hpayload : payloadField w = 0) :
    packWord op 0 0 0 = w := by
  obtain ⟨hbox, ha, hb⟩ := (payloadField_eq_zero w).mp hpayload
  calc packWord op 0 0 0
      = packWord (opField w) (boxField w) (inputField w) (outputField w) := by rw [hop, hbox, ha, hb]; rfl
    _ = w := packWord_fields w

/-- Encoding undoes decoding, by the operation code of the word. -/
theorem encode_of_decode {i : Instr} (h : decode w = .legal i) : encode i = w := by
  obtain hop | hop | hop | hop | hop | hop := opField_cases w
  · simp [decode_of_reserved_op hop] at h
  · rw [decode_of_sbox_op hop] at h
    split_ifs at h with hb
    obtain rfl := Decoded.legal.inj h
    rw [encode, ← hop, ← hb, packWord_fields]
  · obtain rfl := Decoded.legal.inj ((decode_of_cell_op hop).symm.trans h)
    rw [encode, ← hop, packWord_fields]
  · obtain rfl := Decoded.legal.inj ((decode_of_rdlat_op hop).symm.trans h)
    rw [encode, ← hop, packWord_fields]
  · rw [decode_of_build_op hop] at h
    split_ifs at h with hpayload
    obtain rfl := Decoded.legal.inj h
    exact packWord_of_payload_zero hop hpayload
  · rw [decode_of_stat_op hop] at h
    split_ifs at h with hpayload
    obtain rfl := Decoded.legal.inj h
    exact packWord_of_payload_zero hop hpayload

/-- Settles O4: a legal word is its command's word, bit for bit. -/
theorem encodeOfDecode : Obligations.EncodeOfDecode := fun _ _ => encode_of_decode

/-- Settles O6: each operation code has one cause at most, on the words its equation says. -/
theorem illegalWordsByCause : Obligations.IllegalWordsByCause := by
  intro w
  obtain hop | hop | hop | hop | hop | hop := opField_cases w
  · rw [decode_of_reserved_op hop]
    obtain hop | hop | hop := hop <;> simp [hop]
  · rw [decode_of_sbox_op hop]
    split_ifs with hb <;> simpa [hop] using hb
  · simp [decode_of_cell_op hop, hop]
  · simp [decode_of_rdlat_op hop, hop]
  · rw [decode_of_build_op hop]
    split_ifs with hpayload <;> simpa [hop] using hpayload
  · rw [decode_of_stat_op hop]
    split_ifs with hpayload <;> simpa [hop] using hpayload

end Sys2Proof.Machine
end

section
/-! ## The opcode map (30_encoding.md R49) -/

namespace Sys2Proof.Machine

variable {w mask bits : Command}

/-- A row whose mask covers the operation code fixes it. -/
theorem opField_of_and_eq (hmask : opField mask = BitVec.allOnes 3) (h : w &&& mask = bits) :
    opField w = opField bits := by
  rw [← h, opField_and, hmask, BitVec.and_allOnes]

/-- A row whose mask covers `b` fixes it. -/
theorem outputField_of_and_eq (hmask : outputField mask = BitVec.allOnes 4) (h : w &&& mask = bits) :
    outputField w = outputField bits := by
  rw [← h, outputField_and, hmask, BitVec.and_allOnes]

/-- A row whose mask is full selects one word. -/
theorem eq_of_and_full_eq (h : w &&& 0xFFFF = bits) : w = bits :=
  (BitVec.and_allOnes (x := w)).symm.trans h

theorem decode_of_sbox_row (h : w &&& 0xE00F = 0x2000) : decode w = .legal (.sbox (boxField w) (inputField w)) := by
  have hop : opField w = 0b001 := opField_of_and_eq (by decide) h
  have hb : outputField w = 0 := outputField_of_and_eq (by decide) h
  rw [decode_of_sbox_op hop, if_pos hb]

theorem decode_of_cell_row (h : w &&& 0xE000 = 0x4000) :
    decode w = .legal (.cell (boxField w) (inputField w) (outputField w)) :=
  decode_of_cell_op (opField_of_and_eq (by decide) h)

theorem decode_of_rdlat_row (h : w &&& 0xE000 = 0x6000) :
    decode w = .legal (.rdlat (boxField w) (inputField w) (outputField w)) :=
  decode_of_rdlat_op (opField_of_and_eq (by decide) h)

theorem decode_of_build_row (h : w &&& 0xFFFF = 0x8000) : decode w = .legal .build := by
  rw [eq_of_and_full_eq h]
  exact decode_encode .build

theorem decode_of_stat_row (h : w &&& 0xFFFF = 0xA000) : decode w = .legal .stat := by
  rw [eq_of_and_full_eq h]
  exact decode_encode .stat

/-- A word that a row of the opcode map selects decodes to a command with the row's mnemonic. -/
theorem decode_of_selected {r : OpcodeRow} (hr : r ∈ opcodeTable) (hsel : r.selects w = true) :
    ∃ i : Instr, decode w = .legal i ∧ i.mnemonic = r.mnemonic := by
  simp only [opcodeTable, List.mem_cons, List.not_mem_nil, or_false] at hr
  rw [OpcodeRow.selects, beq_iff_eq] at hsel
  obtain rfl | rfl | rfl | rfl | rfl := hr
  · exact ⟨_, decode_of_sbox_row hsel, rfl⟩
  · exact ⟨_, decode_of_cell_row hsel, rfl⟩
  · exact ⟨_, decode_of_rdlat_row hsel, rfl⟩
  · exact ⟨_, decode_of_build_row hsel, rfl⟩
  · exact ⟨_, decode_of_stat_row hsel, rfl⟩

/-- The rows of the opcode map have distinct mnemonics. -/
theorem row_eq_of_mnemonic_eq :
    ∀ r ∈ opcodeTable, ∀ r' ∈ opcodeTable, r.mnemonic = r'.mnemonic → r = r' := by
  decide

/-- The rows of the opcode map that select a command's word: the one with its mnemonic, for every command. -/
theorem opcodeRows (i : Instr) : Laws.OpcodeRows.Statement i := by
  cases i with
  | sbox box x => exact Laws.OpcodeRows.sbox box x
  | cell box alpha beta => exact Laws.OpcodeRows.cell box alpha beta
  | rdlat box alpha beta => exact Laws.OpcodeRows.rdlat box alpha beta
  | build => exact Laws.OpcodeRows.build
  | stat => exact Laws.OpcodeRows.stat

/-- Some row of the opcode map selects a word that decodes to a command: it is the command's word. -/
theorem exists_row_of_legal {i : Instr} (h : decode w = .legal i) : ∃ r ∈ opcodeTable, r.selects w = true := by
  obtain ⟨_, hrows⟩ := opcodeRows i
  rw [encode_of_decode h] at hrows
  have hmem : i.mnemonic ∈ (opcodeTable.filter (·.selects w)).map (·.mnemonic) := by
    rw [hrows]
    exact List.mem_singleton_self _
  obtain ⟨r, hr, _⟩ := List.mem_map.mp hmem
  exact ⟨r, List.mem_filter.mp hr⟩

/-- A word that no row of the opcode map selects is illegal. -/
theorem illegal_of_no_row (h : ∀ r ∈ opcodeTable, r.selects w = false) : ∃ c, decode w = .illegal c := by
  cases hd : decode w with
  | illegal c => exact ⟨c, rfl⟩
  | legal i =>
    obtain ⟨r, hr, hsel⟩ := exists_row_of_legal hd
    exact absurd hsel (by simp [h r hr])

/-- Settles O5: two rows that select one word have the mnemonic of the command it decodes to. -/
theorem opcodeMap : Obligations.OpcodeMap := by
  refine ⟨fun w => ⟨decode_of_sbox_row, decode_of_cell_row, decode_of_rdlat_row, decode_of_build_row,
    decode_of_stat_row, illegal_of_no_row, decode_of_reserved_op⟩, fun w r hr r' hr' hsel hsel' => ?_⟩
  obtain ⟨i, hi, hmn⟩ := decode_of_selected hr hsel
  obtain ⟨i', hi', hmn'⟩ := decode_of_selected hr' hsel'
  obtain rfl : i = i' := Decoded.legal.inj (hi.symm.trans hi')
  exact row_eq_of_mnemonic_eq r hr r' hr' (hmn.symm.trans hmn')

end Sys2Proof.Machine
end

section
/-! ## The invariant of the reachable states (10_state.md section 10; 30_encoding.md R54)

Each operation that a step is made of keeps the invariant, and a step is a composition of them. -/

namespace Sys2Proof.Machine

variable {s t : State}

/-- The invariant speaks of the LAT, CONV, DONE and the response offered only. -/
theorem stateInv_of_same_table (h : StateInv s) (hlat : t.lat = s.lat) (hconv : t.status.conv = s.status.conv)
    (hdone : t.status.done = s.status.done) (hrsp : responseLegal t) : StateInv t := by
  obtain ⟨hwf, hbias, hall, _⟩ := h
  refine ⟨by rw [hlat, hwf], ?_, ?_, hrsp⟩
  · intro box alpha beta v hv
    rw [hconv]
    exact hbias box alpha beta v (hlat ▸ hv)
  · intro hd a
    rw [hlat]
    exact hall (hdone ▸ hd) a

/-- CMD, SEQ and CNT, the host's moves and the counter of free values are free of the invariant. -/
theorem stateInv_congr (hlat : t.lat = s.lat) (hstatus : t.status = s.status) (hrsp : t.rsp = s.rsp)
    (h : StateInv s) : StateInv t := by
  have ⟨_, _, _, hlegal⟩ := h
  exact stateInv_of_same_table h hlat (by rw [hstatus]) (by rw [hstatus]) fun r hr => hlegal r (hrsp ▸ hr)

/-! ### The response channel -/

/-- A command's own response has `err` = 0. -/
theorem stateInv_respond (data : Pattern) (h : StateInv s) : StateInv (respond false data s) :=
  stateInv_of_same_table h (by simp) (by simp) (by simp) (by simp [responseLegal])

theorem stateInv_responseTaken (h : StateInv s) : StateInv (responseTaken s) :=
  stateInv_of_same_table h (by simp) (by simp) (by simp) (by simp [responseLegal])

/-- The response of the error step is 0x81 or 0x82, by its cause. -/
theorem responseLegal_raiseIllegal (c : Cause) (s : State) : responseLegal (raiseIllegal c s) := by
  intro r hr _
  rw [raiseIllegal_rsp, Option.some.injEq] at hr
  subst hr
  cases c with
  | reservedOp => exact .inl rfl
  | fieldNotZero => exact .inr rfl

theorem stateInv_raiseIllegal (c : Cause) (h : StateInv s) : StateInv (raiseIllegal c s) :=
  stateInv_of_same_table h (by simp) (by simp) (by simp) (responseLegal_raiseIllegal c s)

/-! ### The writes of the LAT -/

/-- A cell's run writes one entry, with the bias of its cell, and unwrites none. -/
theorem stateInv_runCell (box : SboxIndex) (alpha : Input) (beta : Output) (h : StateInv s) :
    StateInv (runCell Config.sboxTable box alpha beta s) := by
  obtain ⟨hwf, hbias, hall, hlegal⟩ := h
  refine ⟨by rw [runCell_lat]; exact latWf_latPut _ _ hwf, fun box' alpha' beta' v hv => ?_, fun hdone a => ?_, fun r hr => ?_⟩
  · rw [runCell_lat, latGet_latPut] at hv
    rw [runCell_status]
    split_ifs at hv with hcell
    · obtain ⟨rfl, rfl, rfl⟩ := latAddress_inj.mp hcell
      exact (Option.some.inj hv).symm
    · exact hbias box' alpha' beta' v hv
  · rw [runCell_status] at hdone
    rw [runCell_lat, latGet_latPut]
    split
    · rfl
    · exact hall hdone a
  · rw [runCell_rsp] at hr
    exact hlegal r hr

/-- The loop nest writes every entry with the bias of its cell, so DONE may be set. -/
theorem stateInv_setDone_buildTable (h : StateInv s) : StateInv (setDone (buildTable Config.sboxTable s)) := by
  obtain ⟨hwf, _, _, hlegal⟩ := h
  refine ⟨?_, fun box alpha beta v hv => ?_, fun _ a => ?_, fun r hr => ?_⟩
  · rw [setDone_lat]
    exact latWf_buildTable _ _ hwf
  · rw [setDone_lat, latGet_buildTable, Option.some.injEq] at hv
    rw [← hv, setDone_status, buildTable_status]
  · rw [setDone_lat, latGet_buildTable_address]
    rfl
  · rw [setDone_rsp, buildTable_rsp] at hr
    exact hlegal r hr

/-! ### Commands and steps -/

/-- Every legal command keeps the invariant. -/
theorem exec_stateInv {i : Instr} (h : StateInv s) (hexec : exec i s = .next t) : StateInv t := by
  obtain ⟨_, _, _, rfl⟩ | ⟨box, alpha, beta, _, rfl⟩ | ⟨_, _, _, _, rfl⟩ | ⟨_, rfl⟩ | ⟨_, rfl⟩ := exec_cases hexec
  · exact stateInv_respond _ h
  · exact stateInv_respond _ (stateInv_runCell box alpha beta h)
  · exact stateInv_respond _ (stateInv_congr (latReadState_lat ..) (latReadState_status ..) (latReadState_rsp ..) h)
  · exact stateInv_respond _ (stateInv_setDone_buildTable h)
  · exact stateInv_respond _ h

theorem commandStep_stateInv {w : Command} (h : StateInv s) (hstep : commandStep w s = .next t) : StateInv t := by
  have haccept : StateInv (acceptCommand w s) :=
    stateInv_congr (acceptCommand_lat ..) (acceptCommand_status ..) (acceptCommand_rsp ..) h
  have hrelease : ∀ {u : State}, StateInv u → StateInv (releaseDatapath u) :=
    stateInv_congr (releaseDatapath_lat _) (releaseDatapath_status _) (releaseDatapath_rsp _)
  obtain ⟨i, u, _, hexec, rfl⟩ | ⟨c, _, rfl⟩ := commandStep_cases hstep
  · exact hrelease (exec_stateInv haccept hexec)
  · exact hrelease (stateInv_raiseIllegal c haccept)

/-- Settles O54, by what a step can do: nothing, the taking of a response, a reset, or a command step. -/
theorem everyStepKeepsTheInvariant : Obligations.EveryStepKeepsTheInvariant := by
  intro s t h hstep
  have hmoves : ∀ rest, StateInv (hostMoves rest s) := fun rest =>
    stateInv_congr (hostMoves_lat ..) (hostMoves_status ..) (hostMoves_rsp ..) h
  obtain ⟨_, rfl⟩ | ⟨rest, _, rfl⟩ | ⟨conv, rest, _, rfl⟩ | ⟨_, _, _, _, rfl⟩ | ⟨w, rest, _, _, hcmd⟩ := step_cases hstep
  · exact h
  · exact stateInv_responseTaken (hmoves rest)
  · exact stateInv_afterReset conv _ _
  · exact stateInv_responseTaken h
  · exact commandStep_stateInv (hmoves rest) hcmd

end Sys2Proof.Machine
end

section
/-! ## Every command is answered (30_encoding.md R55) -/

namespace Sys2Proof.Machine

/-- A legal command completes with a response. -/
theorem exec_answers (i : Instr) (s : State) : ∃ t r, exec i s = .next t ∧ t.rsp = some r := by
  cases i with
  | sbox box x => exact ⟨_, _, exec_sbox .., respond_rsp ..⟩
  | cell box alpha beta => exact ⟨_, _, exec_cell .., respond_rsp ..⟩
  | rdlat box alpha beta => exact ⟨_, _, exec_rdlat .., respond_rsp ..⟩
  | build => exact ⟨_, _, exec_build _, respond_rsp ..⟩
  | stat => exact ⟨_, _, exec_stat _, respond_rsp ..⟩

/-- A command step on any word, legal or not, completes with a response. -/
theorem commandStep_answers (w : Command) (s : State) : ∃ t r, commandStep w s = .next t ∧ t.rsp = some r := by
  cases hd : decode w with
  | legal i =>
    obtain ⟨u, r, hexec, hrsp⟩ := exec_answers i (acceptCommand w s)
    exact ⟨releaseDatapath u, r, by rw [commandStep_legal hd, hexec, mapNext_next], by rw [releaseDatapath_rsp, hrsp]⟩
  | illegal c =>
    exact ⟨_, _, commandStep_illegal hd s, by rw [releaseDatapath_rsp, raiseIllegal_rsp]⟩

/-- A session on one more word: its command step, then the session on the others with the response taken. -/
theorem session_cons {w : Command} {s t u : State} {r : Response} {words : List Command} {responses : List Response}
    (hstep : commandStep w s = .next t) (hrsp : t.rsp = some r)
    (hrest : session words (responseTaken t) = some (u, responses)) :
    session (w :: words) s = some (u, r :: responses) := by
  simp only [session, hstep, hrest, hrsp, Option.toList_some, List.singleton_append]

/-- A session completes with as many responses as words. -/
theorem session_completes (words : List Command) (s : State) :
    ∃ u responses, session words s = some (u, responses) ∧ responses.length = words.length := by
  induction words generalizing s with
  | nil => exact ⟨s, [], rfl, rfl⟩
  | cons w rest ih =>
    obtain ⟨t, r, hstep, hrsp⟩ := commandStep_answers w s
    obtain ⟨u, responses, hrest, hlength⟩ := ih (responseTaken t)
    exact ⟨u, r :: responses, session_cons hstep hrsp hrest, by rw [List.length_cons, List.length_cons, hlength]⟩

/-- Settles O46: of the things a step can do only a command step leaves a response that was not there before. -/
theorem oneResponsePerCommand : Obligations.OneResponsePerCommand := by
  refine ⟨session_completes, fun s t h hbefore hafter => ?_⟩
  obtain ⟨_, rfl⟩ | ⟨_, _, rfl⟩ | ⟨_, _, _, rfl⟩ | ⟨w, rest, hhost, _, _⟩ | ⟨w, rest, hhost, _, _⟩ := step_cases h
  · exact absurd hbefore hafter
  · simp at hafter
  · simp at hafter
  · exact ⟨w, rest, hhost⟩
  · exact ⟨w, rest, hhost⟩

end Sys2Proof.Machine
end

section
/-! ## The command word as a number and the assembler (30_encoding.md R47, R56, R57) -/

namespace Sys2Proof.Machine

/-- A command word is its operation code followed by the LAT address of its other fields. -/
theorem packWord_eq_append (op : BitVec 3) (box : SboxIndex) (a : Input) (b : Output) :
    packWord op box a b = op ++ latAddress box a b := by
  rw [packWord, latAddress, BitVec.append_assoc, BitVec.append_assoc, BitVec.append_assoc]
  rfl

/-- A command word as a number: its operation code counts in units of 8192. -/
theorem toNat_packWord (op : BitVec 3) (box : SboxIndex) (a : Input) (b : Output) :
    (packWord op box a b).toNat = 8192 * op.toNat + (latAddress box a b).toNat := by
  rw [packWord_eq_append]
  exact toNat_append_eq_add op (latAddress box a b)

/-- Settles O2: the word is made of its fields, so it is the number they make. -/
theorem commandWordFields : Obligations.CommandWordFields := by
  intro w
  refine ⟨?_, payloadField_eq w, packWord_fields w⟩
  calc w.toNat
      = (packWord (opField w) (boxField w) (inputField w) (outputField w)).toNat := by rw [packWord_fields]
    _ = 8192 * (opField w).toNat + (latAddress (boxField w) (inputField w) (outputField w)).toNat := toNat_packWord ..
    _ = _ := by rw [toNat_latAddress]; omega

/-- The assembler's shifts and ORs make the word of the fields (30_encoding.md R56). -/
theorem assembleFields_eq_toNat (op : BitVec 3) (box : SboxIndex) (a : Input) (b : Output) :
    assembleFields op.toNat box.toNat a.toNat b.toNat = (packWord op box a b).toNat := by
  simp only [assembleFields, packWord, BitVec.toNat_append, Nat.shiftLeft_or_distrib, ← Nat.shiftLeft_add]

/-- The number that the line of a command stands for is its word. -/
theorem number_toAsm (i : Instr) : i.toAsm.number = (encode i).toNat := by
  cases i with
  | sbox box x => exact assembleFields_eq_toNat 0b001 box x 0
  | cell box alpha beta => exact assembleFields_eq_toNat 0b010 box alpha beta
  | rdlat box alpha beta => exact assembleFields_eq_toNat 0b011 box alpha beta
  | build => exact assembleFields_eq_toNat 0b100 0 0 0
  | stat => exact assembleFields_eq_toNat 0b101 0 0 0

/-- A line with its operands in range that stands for the number of a word assembles to the word. -/
theorem assemble_of_number {l : AsmLine} {w : Command} (hwf : l.wellFormed = true) (hnumber : l.number = w.toNat) :
    assemble l = some w := by
  rw [assemble, if_pos hwf, hnumber, BitVec.ofNat_toNat, BitVec.setWidth_eq]

theorem assemble_toAsm (i : Instr) : assemble i.toAsm = some (encode i) :=
  assemble_of_number (Laws.wellFormed_of_width i) (number_toAsm i)

theorem assemble_word (w : Command) : assemble (.word w.toNat) = some w :=
  assemble_of_number (decide_eq_true w.isLt) rfl

/-- Settles O8: a line in range assembles to the number it stands for, and no other line assembles. -/
theorem assemblerGivesTheEncoding : Obligations.AssemblerGivesTheEncoding :=
  ⟨assemble_toAsm, assemble_word, fun l hrange => by simp [assemble, hrange]⟩

/-- The word of the RDLAT command of an address. -/
theorem encode_rdlat_fields (a : LatAddress) :
    encode (.rdlat (latBox a) (latAlpha a) (latBeta a)) = BitVec.ofNat 16 (0x6000 + a.toNat) := by
  have hword : (encode (.rdlat (latBox a) (latAlpha a) (latBeta a))).toNat = 0x6000 + a.toNat := by
    rw [encode, toNat_packWord, latAddress_fields]
    rfl
  rw [← hword, BitVec.ofNat_toNat, BitVec.setWidth_eq]

/-- Settles O9: the loop nest visits the addresses in ascending order (`allCells_eq`). -/
theorem dumpIsAscending : Obligations.DumpIsAscending := by
  unfold Obligations.DumpIsAscending
  rw [dump, allCells_eq, List.map_map, List.map_map]
  refine List.map_congr_left fun k hk => ?_
  rw [List.mem_range] at hk
  simp only [Function.comp_apply, encode_rdlat_fields, BitVec.toNat_ofNat]
  rw [Nat.mod_eq_of_lt hk]

/-! ### The worked encodings (30_encoding.md section 8) -/

/-- The commands of the legal rows. -/
def workedCommands : List Instr :=
  [.sbox 0 0, .sbox 0 63, .sbox 7 33, .cell 0 0 0, .cell 4 16 15, .cell 7 63 15, .rdlat 0 0 0, .rdlat 0 32 0,
    .rdlat 4 16 15, .rdlat 7 63 15, .build, .stat]

/-- The row of a command: its line, the four fields of its word, and the word. -/
def workedRow (i : Instr) : AsmLine × BitVec 3 × SboxIndex × Input × Output × Command :=
  (i.toAsm, opField (encode i), boxField (encode i), inputField (encode i), outputField (encode i), encode i)

/-- Settles O1: the legal rows are the rows of twelve commands, and what they state holds of every command's row; the illegal rows
are evaluated. -/
theorem workedEncodings : Obligations.WorkedEncodings := by
  constructor
  · have hrows : ∀ p ∈ workedCommands.map workedRow,
        packWord p.2.1 p.2.2.1 p.2.2.2.1 p.2.2.2.2.1 = p.2.2.2.2.2 ∧ assemble p.1 = some p.2.2.2.2.2 ∧
          ∃ i, decode p.2.2.2.2.2 = .legal i ∧ i.toAsm = p.1 :=
      List.forall_mem_map.mpr fun i _ => ⟨packWord_fields _, assemble_toAsm i, i, decode_encode i, rfl⟩
    exact hrows
  · have hwords : ∀ p ∈ ([(0x0000, .reservedOp, 0x81), (0x2001, .fieldNotZero, 0x82), (0x8001, .fieldNotZero, 0x82),
        (0xA400, .fieldNotZero, 0x82), (0xFFFF, .reservedOp, 0x81)] : List (Nat × Cause × Response)),
        assemble (.word p.1) = some (BitVec.ofNat 16 p.1) ∧ decode (BitVec.ofNat 16 p.1) = .illegal p.2.1 ∧
          responseWord true (causeCode p.2.1) = p.2.2 := by
      decide
    exact fun p hp => ⟨_, hwords p hp⟩

end Sys2Proof.Machine
end

section
/-! ## The number of legal words (30_encoding.md section 5)

The numbers of 16 bits are eight blocks of 8192, one for each operation code, and `k` in a block is the payload. -/

namespace Sys2Proof.Machine

/-- A count over `m` runs of `n` numbers, run by run. -/
theorem countP_range_mul (p : Nat → Bool) (m n : Nat) :
    (List.range (m * n)).countP p =
      ((List.range m).map fun i => (List.range n).countP fun k => p (n * i + k)).sum := by
  rw [range_mul, List.countP_flatMap]
  simp only [List.countP_map, Function.comp_def]

/-- Just one of the first `n` numbers is 0. -/
theorem countP_range_eq_zero {n : Nat} (hn : 0 < n) : ((List.range n).countP fun k => k == 0) = 1 :=
  List.count_eq_one_of_mem List.nodup_range (List.mem_range.mpr hn)

/-- Whether payload `k` makes a legal word with operation code `op`: `b` is zero for SBOX, the whole payload for BUILD and STAT. -/
def legalPayload (op k : Nat) : Bool :=
  match op with
  | 1 => k % 16 == 0
  | 2 | 3 => true
  | 4 | 5 => k == 0
  | _ => false

/-- How many payloads do. -/
def legalPayloads : Nat → Nat
  | 1 => 512
  | 2 | 3 => 8192
  | 4 | 5 => 1
  | _ => 0

/-- SBOX has one legal payload in each run of 16. -/
theorem countP_sbox_payload : ((List.range 8192).countP fun k => k % 16 == 0) = 512 := by
  have hrun : ∀ i, ((List.range 16).countP fun k => (16 * i + k) % 16 == 0) = 1 := fun i => by
    simp only [Nat.mul_add_mod]
    decide
  rw [show 8192 = 512 * 16 from rfl, countP_range_mul]
  simp only [hrun, List.map_const', List.length_range, List.sum_replicate, smul_eq_mul, Nat.mul_one]

/-- The payloads that make a legal word, counted. -/
theorem countP_legalPayload (op : Nat) : (List.range 8192).countP (legalPayload op) = legalPayloads op := by
  unfold legalPayload legalPayloads
  split
  · exact countP_sbox_payload
  · rw [List.countP_true, List.length_range]
  · rw [List.countP_true, List.length_range]
  · exact countP_range_eq_zero (by decide)
  · exact countP_range_eq_zero (by decide)
  · rw [List.countP_false]
    rfl

/-- The fields of a word by its number. -/
theorem fields_tableWord {op k : Nat} (hop : op < 8) (hk : k < 8192) :
    (opField (tableWord 16 (8192 * op + k))).toNat = op ∧ (outputField (tableWord 16 (8192 * op + k))).toNat = k % 16 ∧
      (payloadField (tableWord 16 (8192 * op + k))).toNat = k := by
  simp only [opField, outputField, payloadField, tableWord, BitVec.extractLsb'_toNat, BitVec.toNat_ofNat,
    Nat.shiftRight_eq_div_pow]
  omega

/-- A table word names no command exactly where it is illegal, with one of the two causes. -/
theorem decodeTableWord_eq_none_iff (nbits n : Nat) :
    decodeTableWord nbits n = none ↔
      decode (tableWord nbits n) = .illegal .reservedOp ∨ decode (tableWord nbits n) = .illegal .fieldNotZero := by
  rw [decodeTableWord]
  cases decode (tableWord nbits n) with
  | legal i => simp
  | illegal c => cases c <;> simp

/-- The words of a block that name no command, by the two causes of `illegalWordsByCause`. -/
theorem decodeTableWord_block_eq_none_iff {op k : Nat} (hop : op < 8) (hk : k < 8192) :
    decodeTableWord 16 (8192 * op + k) = none ↔ legalPayload op k = false := by
  obtain ⟨hopf, hout, hpay⟩ := fields_tableWord hop hk
  obtain ⟨hreserved, hfield⟩ := illegalWordsByCause (tableWord 16 (8192 * op + k))
  rw [decodeTableWord_eq_none_iff, hreserved, hfield]
  simp only [← BitVec.toNat_inj, ne_eq, hopf, hout, hpay]
  interval_cases op <;> simp [legalPayload]

/-- The legal words, block by block. -/
theorem countP_legal_words :
    ((List.range (8 * 8192)).countP fun n => decodeTableWord 16 n != none) = 16898 := by
  rw [countP_range_mul]
  calc ((List.range 8).map fun op => (List.range 8192).countP fun k => decodeTableWord 16 (8192 * op + k) != none).sum
      = ((List.range 8).map legalPayloads).sum := by
        refine congrArg List.sum (List.map_congr_left fun op hop => ?_)
        rw [← countP_legalPayload op]
        refine List.countP_congr fun k hk => ?_
        rw [bne_iff_ne, ne_eq, decodeTableWord_block_eq_none_iff (List.mem_range.mp hop) (List.mem_range.mp hk),
          Bool.not_eq_false]
    _ = 16898 := by decide

/-- The numbers of a list that name no legal word are the rest. Stated of every list, so that nothing tries to evaluate the count
over a long one. -/
theorem countP_illegal_of_countP_legal {words : List Nat} {legal illegal : Nat}
    (hlegal : (words.countP fun n => decodeTableWord 16 n != none) = legal) (hlength : words.length = legal + illegal) :
    (words.countP fun n => decodeTableWord 16 n == none) = illegal := by
  have htotal := List.length_eq_countP_add_countP (fun n => decodeTableWord 16 n == none) (l := words)
  simp only [decide_not, Bool.decide_eq_true] at htotal
  simp only [bne] at hlegal
  omega

/-- Settles O7: the legal words by blocks, and the rest of the 8 * 8192. -/
theorem legalWordCount : Obligations.LegalWordCount :=
  ⟨countP_legal_words, countP_illegal_of_countP_legal countP_legal_words List.length_range⟩

end Sys2Proof.Machine
end

section
/-! ## The 64 inputs as a list (41_lat_cell.md R73) -/

namespace Sys2Proof.Machine

/-- The ascending list visits every input. -/
theorem mem_allInputs (x : Input) : x ∈ allInputs := by
  rw [allInputs, List.mem_map]
  exact ⟨x.toNat, List.mem_range.mpr x.isLt, by rw [BitVec.ofNat_toNat, BitVec.setWidth_eq]⟩

/-- It visits no input twice. -/
theorem nodup_allInputs : allInputs.Nodup := by
  rw [allInputs]
  refine List.nodup_range.map_on fun i hi j hj hij => ?_
  have hnum := congrArg BitVec.toNat hij
  simp only [BitVec.toNat_ofNat, List.mem_range] at hnum hi hj
  omega

/-- A bijection of the inputs only reorders the list. -/
theorem map_allInputs_perm {f : Input → Input} (hf : Function.Bijective f) : (allInputs.map f).Perm allInputs := by
  refine (List.perm_ext_iff_of_nodup (nodup_allInputs.map hf.injective) nodup_allInputs).mpr fun x => ?_
  obtain ⟨v, rfl⟩ := hf.surjective x
  exact iff_of_true (List.mem_map_of_mem (mem_allInputs v)) (mem_allInputs _)

/-- The count of a cell is the number of matches in the list. -/
theorem count_eq_countP (table : SboxTable) (conv : Bool) (box : SboxIndex) (alpha : Input) (beta : Output) :
    count table conv box alpha beta = allInputs.countP (matchBit table conv box alpha beta) := by
  rw [count, ← length_filter_matchBit, ← List.countP_eq_length_filter, allInputs]

end Sys2Proof.Machine
end

section
/-! ## Row and column under the two conventions (40_sbox_lookup.md R62 to R64, R66)

`permuteInput` carries one convention into the other: the outer-bit row and column of `P(v)` are the flat ones of `v`. What
holds of the flat convention, where an input is its row and column side by side, passes to the outer-bit one through it. -/

namespace Sys2Proof.Machine

/-- Settles O11: the two fields of the input as numbers. -/
theorem flatRowAndColumn : Obligations.FlatRowAndColumn := by
  intro x
  have hrow : (flatRow x).toNat = x.toNat / 16 := by
    rw [flatRow, BitVec.extractLsb'_toNat, Nat.shiftRight_eq_div_pow]
    omega
  have hcol : (flatCol x).toNat = x.toNat % 16 := by
    rw [flatCol, BitVec.extractLsb'_toNat, Nat.shiftRight_zero]
  exact ⟨hrow, hcol⟩

theorem flatRow_append (row : Row) (col : Col) : flatRow (row ++ col) = row := by
  rw [flatRow, BitVec.extractLsb'_append_eq_of_le (by omega)]
  exact BitVec.extractLsb'_eq_self

theorem flatCol_append (row : Row) (col : Col) : flatCol (row ++ col) = col := by
  rw [flatCol, BitVec.extractLsb'_append_eq_of_add_le (by omega)]
  exact BitVec.extractLsb'_eq_self

/-- Under the flat convention inputs and pairs of a row and a column correspond one to one. -/
theorem bijective_rowCol_flat : Function.Bijective (rowCol true) :=
  Function.bijective_iff_has_inverse.mpr
    ⟨fun p => p.1 ++ p.2, flatRow_append_flatCol, fun p => Prod.ext (flatRow_append p.1 p.2) (flatCol_append p.1 p.2)⟩

/-- The outer bits of `P(v)` are `v[5]` and `v[4]`. -/
theorem outerRow_permuteInput (v : Input) : outerRow (permuteInput v) = flatRow v := by
  have htop : (permuteInput v).extractLsb' 5 1 = v.extractLsb' 5 1 := by
    rw [permuteInput, BitVec.extractLsb'_append_eq_of_le (by omega), BitVec.extractLsb'_append_eq_of_le (by omega)]
    exact BitVec.extractLsb'_eq_self
  have hlow : (permuteInput v).extractLsb' 0 1 = v.extractLsb' 4 1 := by
    rw [permuteInput, BitVec.extractLsb'_append_eq_of_add_le (by omega)]
    exact BitVec.extractLsb'_eq_self
  rw [outerRow, htop, hlow, BitVec.extractLsb'_append_extractLsb'_eq_extractLsb' (by omega), flatRow]

/-- The inner bits of `P(v)` are `v[3:0]`. -/
theorem outerCol_permuteInput (v : Input) : outerCol (permuteInput v) = flatCol v := by
  rw [outerCol, permuteInput, BitVec.extractLsb'_append_eq_of_le (by omega),
    BitVec.extractLsb'_append_eq_of_add_le (by omega)]
  exact BitVec.extractLsb'_eq_self

/-- The outer-bit convention reads at `P(v)` where the flat one reads at `v`. -/
theorem rowCol_permuteInput (v : Input) : rowCol false (permuteInput v) = rowCol true v :=
  Prod.ext (outerRow_permuteInput v) (outerCol_permuteInput v)

/-- `P` loses no bit: the row and the column that the outer-bit convention reads at `P(v)` make up `v`. -/
theorem bijective_permuteInput : Function.Bijective permuteInput := by
  refine Function.Injective.bijective_of_finite fun v w h => bijective_rowCol_flat.injective ?_
  rw [← rowCol_permuteInput v, ← rowCol_permuteInput w, h]

/-- Under each convention inputs and pairs of a row and a column correspond one to one. -/
theorem bijective_rowCol (conv : Bool) : Function.Bijective (rowCol conv) := by
  cases conv with
  | true => exact bijective_rowCol_flat
  | false =>
    have hcomp : rowCol false ∘ permuteInput = rowCol true := funext rowCol_permuteInput
    rw [← Function.Bijective.of_comp_iff _ bijective_permuteInput, hcomp]
    exact bijective_rowCol_flat

/-- Settles O12: the ROM address holds the row and the column of the input, which determine it. -/
theorem lookupReachesEachEntryOnce : Obligations.LookupReachesEachEntryOnce :=
  ⟨sboxOut_eq, fun conv row col => (bijective_rowCol conv).existsUnique (row, col)⟩

theorem sboxOut_permuteInput (table : SboxTable) (box : SboxIndex) (x : Input) :
    sboxOut table false box (permuteInput x) = sboxOut table true box x := by
  rw [sboxOut_eq, sboxOut_eq, rowCol_permuteInput]

theorem permuteInput_and (v w : Input) : permuteInput (v &&& w) = permuteInput v &&& permuteInput w := by
  rw [permuteInput, BitVec.extractLsb'_and, BitVec.extractLsb'_and, BitVec.extractLsb'_and, ← BitVec.and_append,
    ← BitVec.and_append]
  rfl

/-! `P` bit by bit: it rotates `v[4:0]` and keeps `v[5]`. -/

theorem getLsbD_permuteInput_zero (v : Input) : (permuteInput v).getLsbD 0 = v.getLsbD 4 := by
  simp only [permuteInput, BitVec.getLsbD_append, BitVec.getLsbD_extractLsb']
  rfl

theorem getLsbD_permuteInput_succ (v : Input) {i : Nat} (hi : i < 4) :
    (permuteInput v).getLsbD (i + 1) = v.getLsbD i := by
  simp only [permuteInput, BitVec.getLsbD_append, BitVec.getLsbD_extractLsb']
  simp [hi]

theorem getLsbD_permuteInput_five (v : Input) : (permuteInput v).getLsbD 5 = v.getLsbD 5 := by
  simp only [permuteInput, BitVec.getLsbD_append, BitVec.getLsbD_extractLsb']
  rfl

/-- `P` moves bits only, and in an XOR `v[4]` may stand anywhere. -/
theorem parity_permuteInput (v : Input) : parity (permuteInput v) = parity v := by
  simp only [parity, xorBelow, getLsbD_permuteInput_zero, getLsbD_permuteInput_succ, getLsbD_permuteInput_five,
    Nat.reduceLT]
  simp only [Bool.xor_assoc, Bool.xor_left_comm (v.getLsbD 4)]

theorem ipIn_permuteInput (alpha x : Input) : ipIn (permuteInput alpha) (permuteInput x) = ipIn alpha x := by
  rw [ipIn, ipIn, ← permuteInput_and, parity_permuteInput]

theorem matchBit_permuteInput (table : SboxTable) (box : SboxIndex) (alpha : Input) (beta : Output) (x : Input) :
    matchBit table false box (permuteInput alpha) beta (permuteInput x) = matchBit table true box alpha beta x := by
  rw [matchBit, matchBit, ipIn_permuteInput, sboxOut_permuteInput]

/-- `P` reorders the inputs that are counted, match for match. -/
theorem count_permuteInput (table : SboxTable) (box : SboxIndex) (alpha : Input) (beta : Output) :
    count table false box (permuteInput alpha) beta = count table true box alpha beta :=
  calc count table false box (permuteInput alpha) beta
      = allInputs.countP (matchBit table false box (permuteInput alpha) beta) := count_eq_countP ..
    _ = (allInputs.map permuteInput).countP (matchBit table false box (permuteInput alpha) beta) :=
        ((map_allInputs_perm bijective_permuteInput).countP_eq _).symm
    _ = allInputs.countP (matchBit table true box alpha beta) := by
        rw [List.countP_map]
        exact congrArg (allInputs.countP ·) (funext (matchBit_permuteInput table box alpha beta))
    _ = count table true box alpha beta := (count_eq_countP ..).symm

theorem bias_permuteInput (table : SboxTable) (box : SboxIndex) (alpha : Input) (beta : Output) :
    bias table false box (permuteInput alpha) beta = bias table true box alpha beta := by
  rw [bias, bias, count_permuteInput]

/-- The flat column of biases is the outer-bit one, read in the order of `P`. -/
theorem map_bias_perm (table : SboxTable) (box : SboxIndex) (beta : Output) :
    (allInputs.map fun a => bias table true box a beta).Perm (allInputs.map fun a => bias table false box a beta) := by
  have hcolumn : (allInputs.map fun a => bias table true box a beta) =
      (allInputs.map permuteInput).map fun a => bias table false box a beta := by
    rw [List.map_map]
    exact List.map_congr_left fun a _ => (bias_permuteInput table box a beta).symm
  rw [hcolumn]
  exact (map_allInputs_perm bijective_permuteInput).map _

/-- Settles O17: `P` turns the outer-bit lookup into the flat one and keeps the inner product, so it turns the counts and the biases
into each other. -/
theorem conventionsDifferByAPermutation : Obligations.ConventionsDifferByAPermutation :=
  ⟨fun _ => rfl, bijective_permuteInput, fun table box x => (sboxOut_permuteInput table box x).symm,
    fun alpha x => (ipIn_permuteInput alpha x).symm,
    fun table box alpha beta => (bias_permuteInput table box alpha beta).symm, map_bias_perm⟩

end Sys2Proof.Machine
end

section
/-! ## The SBOX command (40_sbox_lookup.md R65) -/

namespace Sys2Proof.Machine

/-- A response with `err` = 0 and a 4-bit datum is the datum under four zeros. -/
theorem responseWord_zextTo (y : Output) : responseWord false (zextTo 7 y) = (0 : BitVec 4) ++ y := by
  apply BitVec.eq_of_toNat_eq
  rw [toNat_responseWord_false, toNat_append_eq_add, zextTo, BitVec.toNat_setWidth_of_le (by omega)]
  simp

/-- The conventions read the same entry exactly at the fixed points of `P`. -/
theorem rowCol_outer_eq_flat_iff (x : Input) : rowCol false x = rowCol true x ↔ permuteInput x = x := by
  rw [← rowCol_permuteInput, (bijective_rowCol false).injective.eq_iff, eq_comm]

/-- `P` rotates the bits `x[4:0]`, so it fixes the inputs in which these are all equal. -/
theorem permuteInput_eq_self_iff : ∀ x : Input, permuteInput x = x ↔ x = 0 ∨ x = 31 ∨ x = 32 ∨ x = 63 := by
  decide

/-- Settles O16: the command's next state, the decoder on its operation code, the fixed points of `P`, and the rule's examples. -/
theorem sboxCommandRuns : Obligations.SboxCommandRuns := by
  refine ⟨fun box x s => ?_, fun w hop => decode_of_sbox_op hop,
    fun x => (rowCol_outer_eq_flat_iff x).trans (permuteInput_eq_self_iff x), by decide, by decide⟩
  rw [exec_sbox, sboxOut_eq, respond, responseWord_zextTo]

end Sys2Proof.Machine
end

section
/-! ## Parity and the inner products (00_scope.md R13; 41_lat_cell.md R70, R71)

The inner products are bilinear: this is all that the sums over a column of biases need of them. -/

namespace Sys2Proof.Machine

theorem xorBelow_zero {n : Nat} (k : Nat) : xorBelow (0#n) k = false := by
  induction k with
  | zero => rfl
  | succ k ih => simp [xorBelow, ih]

theorem xorBelow_xor {n : Nat} (v w : BitVec n) (k : Nat) : xorBelow (v ^^^ w) k = (xorBelow v k ^^ xorBelow w k) := by
  induction k with
  | zero => rfl
  | succ k ih =>
    simp only [xorBelow, ih, BitVec.getLsbD_xor, Bool.xor_assoc, Bool.xor_left_comm (xorBelow w k)]

@[simp] theorem parity_zero {n : Nat} : parity (0#n) = false := xorBelow_zero n

theorem parity_xor {n : Nat} (v w : BitVec n) : parity (v ^^^ w) = (parity v ^^ parity w) := xorBelow_xor v w n

/-- A word with one bit set has parity 1. -/
theorem parity_twoPow_input : ∀ i < 6, parity (BitVec.twoPow 6 i) = true := by decide

theorem ipIn_comm (alpha x : Input) : ipIn alpha x = ipIn x alpha := by rw [ipIn, ipIn, BitVec.and_comm]

@[simp] theorem ipIn_zero_left (x : Input) : ipIn 0#6 x = false := by rw [ipIn, BitVec.zero_and, parity_zero]

@[simp] theorem ipIn_zero_right (alpha : Input) : ipIn alpha 0#6 = false := by rw [ipIn_comm, ipIn_zero_left]

@[simp] theorem ipOut_zero_left (y : Output) : ipOut 0#4 y = false := by rw [ipOut, BitVec.zero_and, parity_zero]

/-- The input inner product is linear in its first operand, and by `ipIn_comm` in its second. -/
theorem ipIn_xor_left (alpha alpha' x : Input) : ipIn (alpha ^^^ alpha') x = (ipIn alpha x ^^ ipIn alpha' x) := by
  have hand : (alpha ^^^ alpha') &&& x = (alpha &&& x) ^^^ (alpha' &&& x) :=
    BitVec.eq_of_getLsbD_eq fun i _ => by
      simp only [BitVec.getLsbD_and, BitVec.getLsbD_xor, Bool.and_xor_distrib_right]
  rw [ipIn, hand, parity_xor, ← ipIn, ← ipIn]

theorem ipIn_xor_right (alpha x x' : Input) : ipIn alpha (x ^^^ x') = (ipIn alpha x ^^ ipIn alpha x') := by
  rw [ipIn_comm, ipIn_xor_left, ipIn_comm x, ipIn_comm x']

/-- An input other than 0 has an inner product 1 with some mask: the mask of one of its bits. -/
theorem exists_ipIn_eq_true {x : Input} (hx : x ≠ 0) : ∃ e, ipIn e x = true := by
  by_contra hnone
  refine hx (BitVec.eq_of_getLsbD_eq fun i hi => ?_)
  by_contra hbit
  have hset : x.getLsbD i = true := by simpa using hbit
  refine hnone ⟨BitVec.twoPow 6 i, ?_⟩
  rw [ipIn_comm, ipIn, BitVec.and_twoPow, if_pos hset, parity_twoPow_input i hi]

theorem ipIn_eq_xor_of_bits (alpha x : Input) :
    ipIn alpha x = ((alpha.getLsbD 5 && x.getLsbD 5) ^^ (alpha.getLsbD 4 && x.getLsbD 4) ^^
      (alpha.getLsbD 3 && x.getLsbD 3) ^^ (alpha.getLsbD 2 && x.getLsbD 2) ^^
      (alpha.getLsbD 1 && x.getLsbD 1) ^^ (alpha.getLsbD 0 && x.getLsbD 0)) := by
  simp only [ipIn, parity, xorBelow, BitVec.getLsbD_and, Bool.false_xor]
  simp only [Bool.xor_assoc, Bool.xor_comm]

theorem ipOut_eq_xor_of_bits (beta y : Output) :
    ipOut beta y = ((beta.getLsbD 3 && y.getLsbD 3) ^^ (beta.getLsbD 2 && y.getLsbD 2) ^^
      (beta.getLsbD 1 && y.getLsbD 1) ^^ (beta.getLsbD 0 && y.getLsbD 0)) := by
  simp only [ipOut, parity, xorBelow, BitVec.getLsbD_and, Bool.false_xor]
  simp only [Bool.xor_assoc, Bool.xor_comm]

/-- The mask 1 selects the lowest bit. -/
theorem ipOut_one_left (y : Output) : ipOut 1 y = y.getLsbD 0 := by
  simp [ipOut_eq_xor_of_bits]

/-- Settles O18: the XOR of the six bits of `alpha &&& x`, in the order of the rule, and the zeros of a bilinear form. -/
theorem inputInnerProduct : Obligations.InputInnerProduct :=
  ⟨ipIn_eq_xor_of_bits, ipIn_zero_left, ipIn_zero_right⟩

/-- Settles O19: the XOR of the four bits of `beta &&& y`, in the order of the rule, for the masks 0 and 1 too. -/
theorem outputInnerProduct : Obligations.OutputInnerProduct :=
  ⟨ipOut_eq_xor_of_bits, ipOut_zero_left, ipOut_one_left⟩

end Sys2Proof.Machine
end

section
/-! ## The count of a cell (41_lat_cell.md R73, R75, R76) -/

namespace Sys2Proof.Machine

variable (table : SboxTable) (conv : Bool) (box : SboxIndex) (alpha : Input) (beta : Output)

/-- CNT after any list of inputs has grown by the number of matches in the list. -/
theorem foldl_elementaryOp_cnt_eq_countP (xs : List Input) (d : Datapath) :
    (xs.foldl (elementaryOp table conv box alpha beta) d).cnt =
      d.cnt + BitVec.ofNat 7 (xs.countP (matchBit table conv box alpha beta)) := by
  induction xs generalizing d with
  | nil => simp
  | cons x xs ih =>
    rw [List.foldl_cons, ih, elementaryOp_cnt, List.countP_cons, BitVec.ofNat_add, BitVec.add_assoc,
      BitVec.add_comm (BitVec.ofNat 7 _)]
    cases matchBit table conv box alpha beta x <;> rfl

/-- A match is the two inner products' XOR being 0 (41_lat_cell.md R72). -/
theorem matchBit_eq_beq (x : Input) :
    matchBit table conv box alpha beta x = ((ipIn alpha x ^^ ipOut beta (sboxOut table conv box x)) == false) := by
  rw [matchBit, beq_false]

/-- Settles O20: CNT ends at the number of matches in the list it ran over, which is the same for every order. -/
theorem countIsOrderIndependent : Obligations.CountIsOrderIndependent := by
  intro table conv box alpha beta
  have hle := count_le table conv box alpha beta
  refine ⟨?_, hle, fun d xs hperm => ?_⟩
  · rw [count_eq_countP, List.countP_eq_length_filter, funext (matchBit_eq_beq table conv box alpha beta)]
  · rw [foldl_elementaryOp_cnt_eq_countP, hperm.countP_eq, ← count_eq_countP]
    simp only [BitVec.zero_add, BitVec.ofNat_eq_ofNat, BitVec.toNat_ofNat]
    omega

/-- The matches of the first `k` inputs are the lowest `k` bits of the match vector. -/
theorem countBelow_eq_popcountBelow {m : BitVec 64}
    (hm : ∀ x : Input, m.getLsbD x.toNat = matchBit table conv box alpha beta x) {k : Nat} (hk : k ≤ 64) :
    countBelow table conv box alpha beta k = popcountBelow m k := by
  induction k with
  | zero => rfl
  | succ k ih =>
    have hbit := hm (BitVec.ofNat 6 k)
    rw [BitVec.toNat_ofNat, Nat.mod_eq_of_lt (by omega)] at hbit
    rw [countBelow, popcountBelow, ih (by omega), hbit]

/-- Settles O22: the counter and the population count add the same bits. -/
theorem countIsPopcountOfMatchVector : Obligations.CountIsPopcountOfMatchVector := by
  intro table conv box alpha beta m hm
  have hcount : count table conv box alpha beta = popcount m :=
    countBelow_eq_popcountBelow table conv box alpha beta hm (Nat.le_refl 64)
  exact ⟨hcount, by rw [bias, hcount]⟩

/-- Settles O23: 0b1100000 is -32 in 7 bits, and a count minus 32 lies in the range of a signed 7-bit number. -/
theorem normaliserSubtracts32 : Obligations.NormaliserSubtracts32 := by
  intro cnt hcnt
  have henc : normalise cnt = enc7 ((cnt.toNat : Int) - 32) := by
    rw [← normalise_ofNat, BitVec.ofNat_toNat, BitVec.setWidth_eq]
  exact ⟨henc, BitVec.toNat_add .., by rw [henc, dec7_enc7 (by omega) (by omega)]⟩

end Sys2Proof.Machine
end

section
/-! ## Sums of signs over the inputs (41_lat_cell.md section 5)

`walsh f` sums `f` over the inputs with the sign of the inner product. Twice a bias is a value of `walsh` at the sign of the
output product, and the sums over a column follow from the orthogonality of the signs. -/

namespace Sys2Proof.Machine

/-- The sign of a bit: 1 for 0, -1 for 1. -/
def bitSign (b : Bool) : Int := if b then -1 else 1

@[simp] theorem bitSign_false : bitSign false = 1 := rfl
@[simp] theorem bitSign_true : bitSign true = -1 := rfl

theorem bitSign_xor (b c : Bool) : bitSign (b ^^ c) = bitSign b * bitSign c := by
  cases b <;> cases c <;> rfl

theorem bitSign_sq (b : Bool) : bitSign b ^ 2 = 1 := by
  cases b <;> rfl

/-- In a list, the elements with `p` less those without it. -/
theorem sum_bitSign_not (p : Input → Bool) (xs : List Input) :
    (xs.map fun x => bitSign (!p x)).sum = 2 * (xs.countP p : Int) - xs.length := by
  induction xs with
  | nil => rfl
  | cons x xs ih =>
    rw [List.map_cons, List.sum_cons, ih, List.countP_cons, List.length_cons]
    cases p x <;> simp <;> ring

/-- The 64 inputs as a finite set. -/
def inputSet : Finset Input := allInputs.toFinset

@[simp] theorem mem_inputSet (x : Input) : x ∈ inputSet := List.mem_toFinset.mpr (mem_allInputs x)

theorem length_allInputs : allInputs.length = 64 := by rw [allInputs, List.length_map, List.length_range]

theorem card_inputSet : inputSet.card = 64 := by
  rw [inputSet, List.toFinset_card_of_nodup nodup_allInputs, length_allInputs]

/-- A sum over the list of the inputs, whose order does not matter. -/
theorem sum_map_allInputs (f : Input → Int) : (allInputs.map f).sum = ∑ x ∈ inputSet, f x :=
  (List.sum_toFinset f nodup_allInputs).symm

/-- The signs of the inner products with an input other than 0 cancel: in pairs of masks that differ by a mask with inner
product 1. -/
theorem sum_bitSign_ipIn_of_ne_zero {x : Input} (hx : x ≠ 0) : ∑ alpha ∈ inputSet, bitSign (ipIn alpha x) = 0 := by
  obtain ⟨e, he⟩ := exists_ipIn_eq_true hx
  have hflip : ∀ alpha : Input, bitSign (ipIn (alpha ^^^ e) x) = -bitSign (ipIn alpha x) := fun alpha => by
    rw [ipIn_xor_left, he, bitSign_xor, bitSign_true, mul_neg_one]
  refine Finset.sum_involution (fun alpha _ => alpha ^^^ e) (fun alpha _ => ?_) (fun alpha _ hne hfix => ?_)
    (fun alpha _ => mem_inputSet _) (fun alpha _ => ?_)
  · rw [hflip, add_neg_cancel]
  · have hself := hflip alpha
    rw [hfix] at hself
    omega
  · rw [BitVec.xor_assoc, BitVec.xor_self, BitVec.xor_zero]

/-- Orthogonality of the signs. -/
theorem sum_bitSign_ipIn (x : Input) : ∑ alpha ∈ inputSet, bitSign (ipIn alpha x) = if x = 0 then 64 else 0 := by
  split
  · next hx => simp [hx, card_inputSet]
  · next hx => exact sum_bitSign_ipIn_of_ne_zero hx

/-- The sum of `f` over the inputs, with the sign of the inner product with `alpha`. -/
def walsh (f : Input → Int) (alpha : Input) : Int := ∑ x ∈ inputSet, bitSign (ipIn alpha x) * f x

/-- Over all masks only the term of input 0 remains. -/
theorem sum_walsh (f : Input → Int) : ∑ alpha ∈ inputSet, walsh f alpha = 64 * f 0 :=
  calc ∑ alpha ∈ inputSet, walsh f alpha
      = ∑ x ∈ inputSet, (∑ alpha ∈ inputSet, bitSign (ipIn alpha x)) * f x := by
        simp only [walsh, Finset.sum_mul]
        exact Finset.sum_comm
    _ = 64 * f 0 := by simp [sum_bitSign_ipIn]

/-- A square of `walsh` as a double sum, the two signs as one. -/
theorem walsh_sq (f : Input → Int) (alpha : Input) :
    walsh f alpha ^ 2 = ∑ x ∈ inputSet, ∑ y ∈ inputSet, bitSign (ipIn alpha (x ^^^ y)) * (f x * f y) := by
  rw [sq, walsh, Finset.sum_mul_sum]
  refine Finset.sum_congr rfl fun x _ => Finset.sum_congr rfl fun y _ => ?_
  rw [ipIn_xor_right, bitSign_xor, mul_mul_mul_comm]

/-- Parseval's identity: over all masks only the terms with equal inputs remain. -/
theorem sum_walsh_sq (f : Input → Int) : ∑ alpha ∈ inputSet, walsh f alpha ^ 2 = 64 * ∑ x ∈ inputSet, f x ^ 2 :=
  calc ∑ alpha ∈ inputSet, walsh f alpha ^ 2
      = ∑ x ∈ inputSet, ∑ y ∈ inputSet, (∑ alpha ∈ inputSet, bitSign (ipIn alpha (x ^^^ y))) * (f x * f y) := by
        simp only [walsh_sq, Finset.sum_mul]
        rw [Finset.sum_comm]
        exact Finset.sum_congr rfl fun x _ => Finset.sum_comm
    _ = ∑ x ∈ inputSet, 64 * f x ^ 2 := by
        refine Finset.sum_congr rfl fun x _ => ?_
        simp [sum_bitSign_ipIn, BitVec.xor_eq_zero_iff, sq]
    _ = 64 * ∑ x ∈ inputSet, f x ^ 2 := (Finset.mul_sum ..).symm

end Sys2Proof.Machine
end

section
/-! ## The biases for every table (41_lat_cell.md section 5, R78) -/

namespace Sys2Proof.Machine

variable (table : SboxTable) (conv : Bool) (box : SboxIndex) (alpha : Input) (beta : Output)

/-- The sign of the output inner product at an input. -/
def outputSign (x : Input) : Int := bitSign (ipOut beta (sboxOut table conv box x))

/-- Twice the bias is the inputs with a match less those without one. -/
theorem two_mul_bias : 2 * bias table conv box alpha beta = walsh (outputSign table conv box beta) alpha := by
  have hsigns := sum_bitSign_not (matchBit table conv box alpha beta) allInputs
  rw [← count_eq_countP, length_allInputs, sum_map_allInputs] at hsigns
  have hterm : ∀ x, bitSign (!matchBit table conv box alpha beta x) =
      bitSign (ipIn alpha x) * outputSign table conv box beta x := fun x => by
    rw [matchBit, Bool.not_not, bitSign_xor, outputSign]
  rw [walsh, ← Finset.sum_congr rfl fun x _ => hterm x, hsigns, bias]
  push_cast
  ring

/-- Settles O28: Parseval's identity and the column sum of `walsh`, at a function with values 1 and -1. -/
theorem biasColumnSums : Obligations.BiasColumnSums := by
  intro table conv box beta
  have hbias := fun alpha => two_mul_bias table conv box alpha beta
  have hsquares : ∑ alpha ∈ inputSet, (2 * bias table conv box alpha beta) ^ 2 = 64 * 64 := by
    simp only [hbias, sum_walsh_sq, outputSign, bitSign_sq, Finset.sum_const, card_inputSet]
    rfl
  have hsum : ∑ alpha ∈ inputSet, 2 * bias table conv box alpha beta = 64 * outputSign table conv box beta 0 := by
    simp only [hbias, sum_walsh]
  simp only [mul_pow, ← Finset.mul_sum] at hsquares hsum
  have hcolumn : ∑ alpha ∈ inputSet, bias table conv box alpha beta = 32 * outputSign table conv box beta 0 := by omega
  rw [sum_map_allInputs, sum_map_allInputs, hcolumn, outputSign]
  refine ⟨by omega, ?_⟩
  cases ipOut beta (sboxOut table conv box 0) <;> rfl

/-- The bias lies in -32 to 32. -/
theorem bias_bounds : -32 ≤ bias table conv box alpha beta ∧ bias table conv box alpha beta ≤ 32 := by
  have hle := count_le table conv box alpha beta
  rw [bias]
  omega

/-- The lower extreme: no input matches. -/
theorem bias_eq_neg_32_iff : bias table conv box alpha beta = -32 ↔ ∀ x, matchBit table conv box alpha beta x = false := by
  have hzero : bias table conv box alpha beta = -32 ↔ count table conv box alpha beta = 0 := by
    rw [bias]
    omega
  rw [hzero, count_eq_countP, List.countP_eq_zero]
  simp [mem_allInputs]

/-- The upper extreme: every input matches. -/
theorem bias_eq_32_iff : bias table conv box alpha beta = 32 ↔ ∀ x, matchBit table conv box alpha beta x = true := by
  have hfull : bias table conv box alpha beta = 32 ↔ count table conv box alpha beta = allInputs.length := by
    rw [bias, length_allInputs]
    omega
  rw [hfull, count_eq_countP, List.countP_eq_length]
  simp [mem_allInputs]

/-- The trivial approximation: every input matches. -/
theorem bias_zero_zero : bias table conv box 0 0 = 32 :=
  (bias_eq_32_iff ..).mpr fun x => by simp [matchBit]

/-- The zero column: the signs of the input products alone cancel. -/
theorem bias_beta_zero {alpha : Input} (halpha : alpha ≠ 0) : bias table conv box alpha 0 = 0 := by
  have hwalsh := two_mul_bias table conv box alpha 0
  simpa [walsh, outputSign, ipIn_comm alpha, sum_bitSign_ipIn_of_ne_zero halpha] using hwalsh

/-- In the row `alpha` = 0 the convention makes no difference: `P` keeps the mask 0. -/
theorem bias_alpha_zero_flat : bias table conv box 0 beta = bias table true box 0 beta := by
  cases conv with
  | true => rfl
  | false => exact bias_permuteInput table box 0 beta

/-- In the row `alpha` = 0 an input matches where its output has an even product with `beta`. -/
theorem bias_alpha_zero : bias table conv box 0 beta =
    ((allInputs.filter fun v => parity (beta &&& table box (flatRow v) (flatCol v)) == false).length : Int) - 32 := by
  have hmatch : ∀ v, matchBit table true box 0 beta v = (parity (beta &&& table box (flatRow v) (flatCol v)) == false) :=
    fun v => by simp [matchBit_eq_beq, ipOut, rowCol]
  rw [bias_alpha_zero_flat, bias, count_eq_countP, List.countP_eq_length_filter, funext hmatch]

/-- Settles O27, item by item. -/
theorem biasIdentities : Obligations.BiasIdentities := by
  intro table conv box
  refine ⟨bias_zero_zero table conv box, fun _ => bias_beta_zero table conv box, fun alpha beta => ?_,
    bias_alpha_zero table conv box⟩
  obtain ⟨hlow, hhigh⟩ := bias_bounds table conv box alpha beta
  exact ⟨hlow, hhigh, bias_eq_neg_32_iff .., bias_eq_32_iff ..⟩

end Sys2Proof.Machine
end

section
/-! ## The CELL command (41_lat_cell.md R77, R79) -/

namespace Sys2Proof.Machine

/-- Settles O25: the command is one cell's run and a response, and the run writes the cell's own entry. -/
theorem cellCommandRuns : Obligations.CellCommandRuns := by
  intro box alpha beta s
  refine ⟨_, exec_cell box alpha beta s, respond_rsp .., ?_, fun a ha => ?_, ?_, ?_, ?_⟩
  · rw [respond_lat, runCell_lat, latGet_latPut_same, bias]
  · rw [respond_lat, runCell_lat, latGet_latPut_other ha.symm]
  · rw [respond_status, runCell_status]
  · rw [respond_host, runCell_host]
  · rw [respond_draws, runCell_draws]

/-- CELL stores and answers the pattern of its cell's bias. -/
theorem exec_cell_of_bias {box : SboxIndex} {alpha : Input} {beta : Output} {s : State} {n : Int}
    (hbias : bias Config.sboxTable s.status.conv box alpha beta = n) :
    ∃ t, exec (.cell box alpha beta) s = .next t ∧ t.rsp = some (responseWord false (enc7 n)) ∧
      latGet t.lat (latAddress box alpha beta) = some (enc7 n) := by
  obtain ⟨t, hexec, hrsp, hentry, -⟩ := cellCommandRuns box alpha beta s
  exact ⟨t, hexec, hbias ▸ hrsp, hbias ▸ hentry⟩

/-- Settles O29: both states answer and store the pattern of one bias. -/
theorem cellIsPure : Obligations.CellIsPure := by
  intro box alpha beta s s' hconv
  obtain ⟨t, hexec, hrsp, hentry, -⟩ := cellCommandRuns box alpha beta s
  obtain ⟨t', hexec', hrsp', hentry', -⟩ := cellCommandRuns box alpha beta s'
  rw [← hconv] at hrsp' hentry'
  exact ⟨t, t', hexec, hexec', hrsp.trans hrsp'.symm, hentry.trans hentry'.symm⟩

/-- A second CELL answers and leaves what the first did. -/
theorem exec_cell_twice (box : SboxIndex) (alpha : Input) (beta : Output) (s : State) :
    ∃ t u, exec (.cell box alpha beta) s = .next t ∧ exec (.cell box alpha beta) t = .next u ∧ u.rsp = t.rsp ∧
      ∀ a, latGet u.lat a = latGet t.lat a := by
  obtain ⟨t, hexec, hrsp, hentry, -, hstatus, -⟩ := cellCommandRuns box alpha beta s
  obtain ⟨u, hexec', hrsp', hentry', hother, -⟩ := cellCommandRuns box alpha beta t
  rw [hstatus] at hrsp' hentry'
  refine ⟨t, u, hexec, hexec', hrsp'.trans hrsp.symm, fun a => ?_⟩
  by_cases ha : a = latAddress box alpha beta
  · rw [ha, hentry', hentry]
  · exact hother a ha

/-- The rule's example: cell (4, 16, 15) of `DES_TABLE` under the outer-bit convention. -/
theorem count_desTable_example : count desTable false 4 16 15 = 12 := by decide

/-- Settles O26: the biases at (0, 0) and in the zero column, a cell run twice, and the rule's example. -/
theorem cellCornerCases : Obligations.CellCornerCases :=
  ⟨fun box _ => exec_cell_of_bias (bias_zero_zero _ _ box),
    fun box _ _ halpha => exec_cell_of_bias (bias_beta_zero _ _ box halpha), exec_cell_twice, by decide, by decide,
    count_desTable_example, by rw [bias, count_desTable_example]; decide⟩

end Sys2Proof.Machine
end

section
/-! ## The BUILD command (42_lat_build.md R83, R84) -/

namespace Sys2Proof.Machine

variable {s : State}

/-- Every entry of the LAT holds the bias of its cell under the convention: what BUILD leaves (42_lat_build.md R83). -/
def holdsTable (conv : Bool) (l : LatRam) : Prop :=
  ∀ box alpha beta, latGet l (latAddress box alpha beta) = some (enc7 (bias Config.sboxTable conv box alpha beta))

/-- Two canonical LATs that hold the table under one convention are the same list. -/
theorem lat_eq_of_holdsTable {conv : Bool} {l m : LatRam} (hl : latWf l = true) (hm : latWf m = true)
    (htl : holdsTable conv l) (htm : holdsTable conv m) : l = m := by
  refine lat_ext hl hm fun a => ?_
  rw [← latAddress_fields a, htl, htm]

/-- Under the invariant DONE says that the LAT holds the table (10_state.md R24, R30). -/
theorem holdsTable_of_done (h : StateInv s) (hdone : s.status.done = true) : holdsTable s.status.conv s.lat := by
  intro box alpha beta
  obtain ⟨_, hbias, hall, _⟩ := h
  obtain ⟨v, hv⟩ := Option.isSome_iff_exists.mp (hall hdone (latAddress box alpha beta))
  rw [hv, hbias box alpha beta v hv]

/-- Settles O30: BUILD is the loop nest, which writes every entry and touches no flag, then DONE and the response 0x00. -/
theorem buildCommandRuns : Obligations.BuildCommandRuns := by
  intro s
  refine ⟨_, exec_build s, fun box alpha beta => ?_, fun a => ?_, ?_, respond_rsp .., ?_, ?_⟩
  · rw [respond_lat, setDone_lat, latGet_buildTable, bias]
  · rw [respond_lat, setDone_lat, latGet_buildTable_address, Option.isSome_some]
  · rw [respond_status, setDone_status, buildTable_status]
  · rw [respond_host, setDone_host, buildTable_host]
  · rw [respond_draws, setDone_draws, buildTable_draws]

/-- Settles O31: the LAT before and the LAT after both hold the table. -/
theorem buildAgainChangesNothing : Obligations.BuildAgainChangesNothing := by
  intro s hinv hdone
  obtain ⟨t, hexec, htable, -, hstatus, hrsp, -⟩ := buildCommandRuns s
  have ⟨hwf, _⟩ := hinv
  have ⟨hwf', _⟩ := exec_stateInv hinv hexec
  refine ⟨t, hexec, lat_eq_of_holdsTable hwf' hwf htable (holdsTable_of_done hinv hdone), ?_, hrsp⟩
  rw [hstatus, ← hdone]

/-- Settles O32: STAT reads CONV, DONE = 1 and ERR = 0, and the bias of (0, 0) is 32 for every S-box and both conventions. -/
theorem buildAfterReset : Obligations.BuildAfterReset := by
  intro conv host draws
  obtain ⟨t, hexec, htable, -, hstatus, hrsp, -⟩ := buildCommandRuns (State.afterReset conv host draws)
  refine ⟨t, hexec, hrsp, ⟨_, exec_stat t, ?_⟩, fun box => ⟨_, rdlatOfWrittenEntry box 0 0 t _ (htable box 0 0), ?_⟩⟩
  · rw [respond_rsp, hstatus, afterReset_status]
    cases conv <;> rfl
  · exact congrArg (fun n => some (responseWord false (enc7 n))) (bias_zero_zero ..)

end Sys2Proof.Machine
end

section
/-! ## The canonical session (70_reset_and_hazards.md R110)

BUILD leaves the table in the LAT, and each RDLAT of DUMP answers its entry and leaves the LAT as it was. -/

namespace Sys2Proof.Machine

/-- The response that reads out the bias of a cell. -/
def biasResponse (conv : Bool) (c : SboxIndex × Input × Output) : Response :=
  responseWord false (enc7 (bias Config.sboxTable conv c.1 c.2.1 c.2.2))

/-- The command step on BUILD's word. -/
theorem commandStep_build (s : State) :
    ∃ t, commandStep (encode .build) s = .next t ∧ t.rsp = some 0x00 ∧ holdsTable s.status.conv t.lat := by
  obtain ⟨u, hexec, htable, -, -, hrsp, -⟩ := buildCommandRuns (acceptCommand (encode .build) s)
  rw [acceptCommand_status] at htable
  refine ⟨releaseDatapath u, ?_, by rw [releaseDatapath_rsp, hrsp], by rw [releaseDatapath_lat]; exact htable⟩
  rw [commandStep_legal (decode_encode .build), hexec, mapNext_next]

/-- The command step on RDLAT's word, of a written entry. -/
theorem commandStep_rdlat {box : SboxIndex} {alpha : Input} {beta : Output} {s : State} {v : Pattern}
    (h : latGet s.lat (latAddress box alpha beta) = some v) :
    ∃ t, commandStep (encode (.rdlat box alpha beta)) s = .next t ∧ t.rsp = some (responseWord false v) ∧ t.lat = s.lat := by
  have hexec := rdlatOfWrittenEntry box alpha beta (acceptCommand (encode (.rdlat box alpha beta)) s) v
    (by rw [acceptCommand_lat, h])
  refine ⟨_, by rw [commandStep_legal (decode_encode _), hexec, mapNext_next], ?_, ?_⟩
  · rw [releaseDatapath_rsp]
  · rw [releaseDatapath_lat, acceptCommand_lat]

/-- Where the LAT holds the table, a session of RDLAT commands answers the biases of their cells. -/
theorem session_rdlat {conv : Bool} (cells : List (SboxIndex × Input × Output)) {s : State}
    (htable : holdsTable conv s.lat) :
    ∃ u, session (cells.map fun c => encode (.rdlat c.1 c.2.1 c.2.2)) s = some (u, cells.map (biasResponse conv)) := by
  induction cells generalizing s with
  | nil => exact ⟨s, rfl⟩
  | cons c rest ih =>
    obtain ⟨t, hstep, hrsp, hlat⟩ := commandStep_rdlat (htable c.1 c.2.1 c.2.2)
    obtain ⟨u, hrest⟩ := ih (s := responseTaken t) (by rwa [responseTaken_lat, hlat])
    exact ⟨u, session_cons hstep hrsp hrest⟩

/-- Settles O57: BUILD's step, then the RDLAT commands of all cells, which `allCells_eq` has in ascending address order. -/
theorem canonicalSessionTable : Obligations.CanonicalSessionTable := by
  intro conv host draws
  obtain ⟨t, hstep, hrsp, htable⟩ := commandStep_build (State.afterReset conv host draws)
  rw [afterReset_status] at htable
  obtain ⟨u, hdump⟩ := session_rdlat allCells (s := responseTaken t) (by rwa [responseTaken_lat])
  have hwords : dump.map encode = allCells.map fun c => encode (.rdlat c.1 c.2.1 c.2.2) := by rw [dump, List.map_map]; rfl
  have hascending : allCells.map (biasResponse conv) = (List.range 8192).map fun k =>
      biasResponse conv (latBox (BitVec.ofNat 13 k), latAlpha (BitVec.ofNat 13 k), latBeta (BitVec.ofNat 13 k)) := by
    rw [allCells_eq, List.map_map]
    rfl
  rw [← hwords, hascending] at hdump
  exact ⟨u, session_cons hstep hrsp hdump⟩

end Sys2Proof.Machine
end

section
/-! ## RDLAT under the invariant (43_readout_status.md R89, corner case) -/

namespace Sys2Proof.Machine

/-- Settles O37: RDLAT answers the stored pattern, which the invariant says is the bias of its cell. -/
theorem rdlatAnswersTheBias : Obligations.RdlatAnswersTheBias := by
  intro box alpha beta s ⟨_, hbias, _⟩ hwritten
  obtain ⟨v, hv⟩ := Option.isSome_iff_exists.mp hwritten
  rw [← hbias box alpha beta v hv]
  exact rdlatOfWrittenEntry box alpha beta s v hv

end Sys2Proof.Machine
end

section
/-! ## Errors and completion (60_exceptions.md R94, R96, R97, R101) -/

namespace Sys2Proof.Machine

/-- The response of a legal command has `err` = 0 (60_exceptions.md R94). -/
theorem exec_rsp {i : Instr} {s t : State} (h : exec i s = .next t) :
    ∃ data, t.rsp = some (responseWord false data) := by
  obtain ⟨_, _, _, rfl⟩ | ⟨_, _, _, _, rfl⟩ | ⟨_, _, _, _, rfl⟩ | ⟨_, rfl⟩ | ⟨_, rfl⟩ := exec_cases h <;>
    exact ⟨_, respond_rsp ..⟩

/-- No legal command touches ERR: the one flag that one can write is BUILD's DONE. -/
theorem exec_err {i : Instr} {s t : State} (h : exec i s = .next t) : t.status.err = s.status.err := by
  obtain hsame | ⟨_, hdone⟩ := exec_status h
  · rw [hsame]
  · rw [hdone]

/-- Settles O40: every command completes, its response has `err` = 0, and it leaves ERR alone. -/
theorem legalCommandsNeverFail : Obligations.LegalCommandsNeverFail := by
  intro i s
  obtain ⟨t, _, hexec, _⟩ := exec_answers i s
  obtain ⟨data, hrsp⟩ := exec_rsp hexec
  exact ⟨t, _, hexec, hrsp, responseErr_responseWord .., exec_err hexec⟩

/-- Settles O41, by the host's next move: a command that is accepted is answered, and the other moves are equations of `step`. -/
theorem everyStepCompletes : Obligations.EveryStepCompletes := by
  intro s
  match hhost : s.host with
  | [] => exact ⟨_, step_of_no_move hhost⟩
  | .takeResponse :: rest => exact ⟨_, step_of_takeResponse hhost⟩
  | .reset conv :: rest => exact ⟨_, step_of_reset hhost⟩
  | .command w :: rest =>
    by_cases hrsp : s.rsp = none
    · obtain ⟨t, _, hcmd, _⟩ := commandStep_answers w (hostMoves rest s)
      exact ⟨t, by rw [step_of_accepted_command hhost hrsp, hcmd]⟩
    · exact ⟨_, step_of_held_back_command hhost hrsp⟩

/-- Settles O39: the word is accepted, and the command step on it is `raiseIllegal` between two changes of the datapath
registers. -/
theorem errorStep : Obligations.ErrorStep := by
  intro s w rest c hhost hrsp hillegal
  refine ⟨_, by rw [step_of_accepted_command hhost hrsp, commandStep_illegal hillegal], ?_, ?_, ?_, ?_⟩
  · simp
  · simp
  · rw [releaseDatapath_rsp, raiseIllegal_rsp]
    cases c <;> rfl
  · simp

/-- A command step answers with `err` = 1 exactly where it takes the error step, which is where it sets ERR. -/
theorem commandStep_err (w : Command) (s : State) :
    ∃ t r, commandStep w s = .next t ∧ t.rsp = some r ∧ t.status.err = (s.status.err || responseErr r) := by
  obtain ⟨t, _, hstep, _⟩ := commandStep_answers w s
  obtain ⟨i, v, _, hexec, rfl⟩ | ⟨c, _, rfl⟩ := commandStep_cases hstep
  · obtain ⟨data, hrsp⟩ := exec_rsp hexec
    exact ⟨_, _, hstep, by rw [releaseDatapath_rsp, hrsp], by simp [exec_err hexec]⟩
  · exact ⟨_, _, hstep, by rw [releaseDatapath_rsp, raiseIllegal_rsp], by simp⟩

/-- After a session ERR is what it was before, or 1 if a response had `err` = 1. -/
theorem session_err {words : List Command} {s u : State} {responses : List Response}
    (h : session words s = some (u, responses)) :
    u.status.err = (s.status.err || responses.any responseErr) := by
  induction words generalizing s responses with
  | nil =>
    obtain ⟨rfl, rfl⟩ : s = u ∧ [] = responses := by simpa [session] using h
    simp
  | cons w rest ih =>
    obtain ⟨t, r, hstep, hrsp, herr⟩ := commandStep_err w s
    obtain ⟨v, later, hrest, _⟩ := session_completes rest (responseTaken t)
    rw [session_cons hstep hrsp hrest, Option.some.injEq, Prod.mk.injEq] at h
    obtain ⟨rfl, rfl⟩ := h
    calc v.status.err
        = ((responseTaken t).status.err || later.any responseErr) := ih hrest
      _ = (s.status.err || responseErr r || later.any responseErr) := by rw [responseTaken_status, herr]
      _ = (s.status.err || (r :: later).any responseErr) := by rw [List.any_cons, Bool.or_assoc]

/-- Settles O45: from ERR = 0, ERR at the end is whether some response had `err` = 1. -/
theorem errRecordsTheResponses : Obligations.ErrRecordsTheResponses := by
  intro words s u responses h herr
  rw [session_err h, herr, Bool.false_or]
  simp

end Sys2Proof.Machine
end

section
/-! ## Row and column as numbers under the outer-bit convention (40_sbox_lookup.md R62; 92_eei_decisions.md D7) -/

namespace Sys2Proof.Machine

/-- A field of one bit is, as a number, that bit. -/
theorem toNat_extractLsb'_one {n : Nat} (x : BitVec n) (i : Nat) : (x.extractLsb' i 1).toNat = (x.getLsbD i).toNat := by
  rw [BitVec.extractLsb'_toNat, BitVec.getLsbD, Nat.toNat_testBit, Nat.shiftRight_eq_div_pow, Nat.pow_one]

/-- Settles O10: the row is two fields of one bit side by side, the column the field above `x[0]`. -/
theorem outerBitRowAndColumn : Obligations.OuterBitRowAndColumn := by
  intro x
  have hrow : (outerRow x).toNat = 2 * (x.getLsbD 5).toNat + (x.getLsbD 0).toNat := by
    rw [outerRow, toNat_append_eq_add, toNat_extractLsb'_one, toNat_extractLsb'_one, Nat.pow_one]
  have hcol : (outerCol x).toNat = (x.toNat / 2) % 16 := by
    rw [outerCol, BitVec.extractLsb'_toNat, Nat.shiftRight_eq_div_pow, Nat.pow_one]
  exact ⟨hrow, hcol⟩

end Sys2Proof.Machine
end

section
/-! ## The reachable states (10_state.md R30, section 10) -/

namespace Sys2Proof.Machine

variable {s t : State} {a : LatAddress}

/-- Neither CELL's write nor BUILD's loop nest unwrites an entry, and no other command writes the LAT. -/
theorem exec_keeps_written {i : Instr} (hexec : exec i s = .next t) (hwritten : (latGet s.lat a).isSome) :
    (latGet t.lat a).isSome := by
  obtain hsame | ⟨_, _, _, _, hput⟩ | ⟨_, htable⟩ := exec_lat hexec
  · rwa [hsame]
  · rw [hput, latGet_latPut]
    split
    · rfl
    · exact hwritten
  · rw [htable, latGet_buildTable_address, Option.isSome_some]

theorem commandStep_keeps_written {w : Command} (hstep : commandStep w s = .next t)
    (hwritten : (latGet s.lat a).isSome) : (latGet t.lat a).isSome := by
  obtain ⟨i, u, _, hexec, rfl⟩ | ⟨c, _, rfl⟩ := commandStep_cases hstep
  · rw [releaseDatapath_lat]
    exact exec_keeps_written hexec (by rwa [acceptCommand_lat])
  · rwa [releaseDatapath_lat, raiseIllegal_lat, acceptCommand_lat]

/-- Settles O52, by what a step can do: only a reset clears the LAT, and only a command step writes it. -/
theorem writtenStaysWritten : Obligations.WrittenStaysWritten := by
  intro s t a hstep hno hwritten
  obtain ⟨_, rfl⟩ | ⟨_, _, rfl⟩ | ⟨conv, rest, hhost, _⟩ | ⟨_, _, _, _, rfl⟩ | ⟨w, rest, _, _, hcmd⟩ := step_cases hstep
  · exact hwritten
  · rwa [responseTaken_lat, hostMoves_lat]
  · exact absurd ⟨conv, rest, hhost⟩ hno
  · rwa [responseTaken_lat]
  · exact commandStep_keeps_written hcmd (by rwa [hostMoves_lat])

/-- Every reachable state meets the invariant: a reset establishes it and every step keeps it. -/
theorem ReachableSince.stateInv {conv : Bool} (h : ReachableSince conv s) : StateInv s := by
  induction h with
  | start conv host draws => exact stateInv_afterReset conv host draws
  | move _ _ hs ih => exact everyStepKeepsTheInvariant _ _ ih hs
  | reset _ _ hs ih => exact everyStepKeepsTheInvariant _ _ ih hs

/-- In every reachable state CONV is the strap value of the last reset (10_state.md R23, R30 (d)). -/
theorem ReachableSince.conv_eq {conv : Bool} (h : ReachableSince conv s) : s.status.conv = conv := by
  induction h with
  | start conv host draws => rw [afterReset_status]
  | move _ hno hs ih =>
    obtain ⟨hkept, _⟩ := conventionChangesOnlyAtReset _ _ hs
    exact (hkept hno).trans ih
  | reset _ hhost hs _ =>
    obtain ⟨_, hstrap⟩ := conventionChangesOnlyAtReset _ _ hs
    exact hstrap _ _ hhost

/-- Settles O56: (a) and (b) are clauses of the invariant, (c) is STATUS's packing, (d) the strap of the last reset. -/
theorem reachableStates : Obligations.ReachableStates := by
  intro conv s h
  obtain ⟨_, hbias, hall, _⟩ := h.stateInv
  obtain ⟨_, _, _, _, hreserved⟩ := statusWord_fields s.status
  exact ⟨hbias, hall, hreserved, h.conv_eq⟩

end Sys2Proof.Machine
end
